-- ==== Sys2Proof/Word.lean ====
section
/-! DEFINITION. The machine's word types (00_scope.md R7, R80): every accumulator, table entry, seed and
result is a 32-bit unsigned value, data enters in bytes, and a command is a 40-bit word. -/

namespace Sys2Proof

/-- A 32-bit unsigned value (R7). -/
abbrev Word := BitVec 32

/-- An 8-bit data byte, opcode or table index (R83). -/
abbrev Byte := BitVec 8

/-- A 40-bit command word: the opcode in bits 39:32, the operand in bits 31:0 (R80). -/
abbrev CommandWord := BitVec 40

end Sys2Proof
end

