-- ==== Sys2Proof/Config.lean ====
section
/-! DEFINITION. The implementation parameters of this instance (00_scope.md R8, R9). The spec leaves no value
of a completed command open, so this file declares no free value. -/

namespace Sys2Proof.Config

/-- `POLY`, the CRC-32 generator polynomial in reflected bit order (R9, R43). -/
def poly : Word := 0xEDB88320#32

/-- `POLY_EXPONENTS`, the exponents that give `POLY` under rule R44 (R9). -/
def polyExponents : List Nat := [0, 1, 2, 4, 5, 7, 8, 10, 11, 12, 16, 22, 23, 26]

/-- `WORD_PATH` of this instance: the word commands are present (R9, 93_implementation_defined.md I8). -/
def wordPath : Bool := true

/-- `NT`, the number of tables (R8). -/
def tables : Nat := 8

/-- `ND`, the number of entries of a table (R8). -/
def entries : Nat := 256

end Sys2Proof.Config
end

