-- ==== Sys2Proof/Syntax.lean ====
section
/-! DEFINITION. The commands: one constructor per row of spec/opcode_table.json (30_encoding.md R85). An operand
holds exactly the bits its format reads (R83); ignored bits are no part of a command (R84). -/

namespace Sys2Proof

/-- A command of the engine, with its operands as rule R83 assembles them. -/
inductive Instr where
  /-- `NOP` (R100). -/
  | nop
  /-- `INIT v` (R101): `v` is the previous, finalized CRC. -/
  | init (v : Word)
  /-- `BYTE b` (R110): one stream byte. -/
  | byte (b : Byte)
  /-- `WORDLE v` (R112): four stream bytes, the first in `v[7:0]`. -/
  | wordle (v : Word)
  /-- `WORDBE v` (R114): four stream bytes, the first in `v[31:24]`. -/
  | wordbe (v : Word)
  /-- `TREAD k, n` (R130): entry `n` of table `k`. -/
  | tread (k : BitVec 3) (n : Byte)
  deriving DecidableEq, Repr

end Sys2Proof
end

