-- ==== Sys2Proof/WellFormed.lean ====
section
/-! DEFINITION. Which commands an instance has. The operand types of `Instr` already hold exactly the bits an
encoding has, so one check is left: the word commands exist only where `WORD_PATH = 1` (30_encoding.md R86).
The operand ranges of assembly source (R91) are checked by `AsmLine.wellFormed` in Machine/Assembler.lean. -/

namespace Sys2Proof

/-- A command exists in an instance whose `WORD_PATH` parameter is `wordPath` (R85, R86). -/
def Instr.wellFormed (wordPath : Bool) : Instr → Bool
  | .nop => true
  | .init _ => true
  | .byte _ => true
  | .wordle _ => wordPath
  | .wordbe _ => wordPath
  | .tread _ _ => true

end Sys2Proof
end

