-- ==== Sys2Proof/Decode.lean ====
section
/-! DEFINITION. The decoder, total on all 2^40 command words (30_encoding.md R80 to R88), and the encoder written
from the same tables. -/

namespace Sys2Proof

/-- The opcode field, bits 39:32 of the command word (R80). -/
def opcodeOf (w : CommandWord) : Byte := w.extractLsb' 32 8

/-- The operand field, bits 31:0 of the command word (R80). -/
def argOf (w : CommandWord) : Word := w.extractLsb' 0 32

/-- The command word `{op, arg}` (R80). -/
def commandWord (op : Byte) (arg : Word) : CommandWord := op ++ arg

/-- What the decoder reads from a command word: a command, or a reserved opcode by name (R88). -/
inductive Decoded where
  /-- An assigned opcode with its operands. -/
  | command (i : Instr)
  /-- An opcode that R85 or R86 does not assign. -/
  | reserved (op : Byte)
  deriving DecidableEq, Repr

/-- The operand of format B: `b = arg[7:0]` (R83). -/
def byteOperand (arg : Word) : Byte := arg.extractLsb' 0 8

/-- The table number of format T: `k = arg[10:8]` (R83). -/
def tableOperand (arg : Word) : BitVec 3 := arg.extractLsb' 8 3

/-- The entry number of format T: `n = arg[7:0]` (R83). -/
def entryOperand (arg : Word) : Byte := arg.extractLsb' 0 8

/-- The decoder of rule R88, for an instance whose `WORD_PATH` is `wordPath`. -/
def decode (wordPath : Bool) (w : CommandWord) : Decoded :=
  if opcodeOf w = 0x00#8 then .command .nop
  else if opcodeOf w = 0x01#8 then .command (.init (argOf w))
  else if opcodeOf w = 0x10#8 then .command (.byte (byteOperand (argOf w)))
  else if opcodeOf w = 0x20#8 then
    (if wordPath then .command (.wordle (argOf w)) else .reserved (opcodeOf w))
  else if opcodeOf w = 0x21#8 then
    (if wordPath then .command (.wordbe (argOf w)) else .reserved (opcodeOf w))
  else if opcodeOf w = 0x30#8 then
    .command (.tread (tableOperand (argOf w)) (entryOperand (argOf w)))
  else .reserved (opcodeOf w)

/-- The command a decoding holds, if it holds one. -/
def Decoded.toOption : Decoded → Option Instr
  | .command i => some i
  | .reserved _ => none

/-- The opcode of a command (R85). -/
def Instr.opcode : Instr → Byte
  | .nop => 0x00#8
  | .init _ => 0x01#8
  | .byte _ => 0x10#8
  | .wordle _ => 0x20#8
  | .wordbe _ => 0x21#8
  | .tread _ _ => 0x30#8

/-- The operand field of a command (R83), with 0 in every ignored bit (R84, R91). -/
def Instr.arg : Instr → Word
  | .nop => 0#32
  | .init v => v
  | .byte b => 0#24 ++ b
  | .wordle v => v
  | .wordbe v => v
  | .tread k n => 0#21 ++ k ++ n

/-- The command word of a command (R80, R91). -/
def encode (i : Instr) : CommandWord := commandWord i.opcode i.arg

/-- The operand bits a command with this opcode reads; the others are ignored (the last column of R83's table).
A reserved opcode reads none of them (R150: `arg ignored`). -/
def usedArgBits (op : Byte) : Word :=
  if op = 0x01#8 ∨ op = 0x20#8 ∨ op = 0x21#8 then 0xFFFFFFFF#32
  else if op = 0x10#8 then 0x000000FF#32
  else if op = 0x30#8 then 0x000007FF#32
  else 0x00000000#32

/-- A command word with 0 in every bit its command ignores (R84). -/
def clearIgnored (w : CommandWord) : CommandWord :=
  commandWord (opcodeOf w) (argOf w &&& usedArgBits (opcodeOf w))

/-- The command word whose bits `w` numbers as spec/opcode_table.json does (bit 39 is the first of its `encoding`
column, bit 0 the last), cut to `nbits` bits. -/
def tableWord (nbits w : Nat) : CommandWord := BitVec.ofNat 40 (w % 2 ^ nbits)

/-- The command this instance's decoder reads from a row's word. -/
def decodeTableWord (nbits w : Nat) : Option Instr :=
  (decode Config.wordPath (tableWord nbits w)).toOption

end Sys2Proof
end

