-- ==== Sys2Proof/Machine/Operands.lean ====
section
/-! DEFINITION. Bytes of a word, the byte swap, and the packing of stream bytes into word operands
(00_scope.md R10 to R12, 20_memory.md R72, 41_crc_datapath.md R116). -/

namespace Sys2Proof.Machine

/-- `zext_32` of a byte (R11). -/
def zext32 (b : Byte) : Word := b.setWidth 32

/-- Byte `i` of a value, `v[8i+7:8i]`; byte 0 is the least significant (R10). -/
def byteOf (i : Nat) (v : Word) : Byte := v.extractLsb' (8 * i) 8

/-- `{b3, b2, b1, b0}`: the concatenation with `b3` most significant (R11). -/
def concatBytes (b3 b2 b1 b0 : Byte) : Word := b3 ++ b2 ++ b1 ++ b0

/-- `bswap32(v) = {v[7:0], v[15:8], v[23:16], v[31:24]}` (R12). -/
def bswap32 (v : Word) : Word := concatBytes (byteOf 0 v) (byteOf 1 v) (byteOf 2 v) (byteOf 3 v)

/-- The one's complement at both ends of a computation, `v ^ 0xFFFFFFFF` (R2). -/
def complement (v : Word) : Word := v ^^^ 0xFFFFFFFF#32

/-- The little-endian word of four stream bytes, the first in bits 7:0 (R72, R116). -/
def packLE (b0 b1 b2 b3 : Byte) : Word := concatBytes b3 b2 b1 b0

/-- The big-endian word of four stream bytes, the first in bits 31:24 (R72, R116). -/
def packBE (b0 b1 b2 b3 : Byte) : Word := concatBytes b0 b1 b2 b3

/-- The stream bytes of a WORDLE operand: stream byte `i` is `v[8i+7:8i]` (R112). -/
def leBytes (v : Word) : List Byte := [byteOf 0 v, byteOf 1 v, byteOf 2 v, byteOf 3 v]

/-- The stream bytes of a WORDBE operand: stream byte `i` is `v[31-8i:24-8i]` (R114). -/
def beBytes (v : Word) : List Byte := [byteOf 3 v, byteOf 2 v, byteOf 1 v, byteOf 0 v]

/-- The stream bytes a command carries, in stream order (R35, R116). -/
def streamBytes : Instr → List Byte
  | .nop => []
  | .init _ => []
  | .byte b => [b]
  | .wordle v => leBytes v
  | .wordbe v => beBytes v
  | .tread _ _ => []

end Sys2Proof.Machine
end

