-- ==== Sys2Proof/Machine/Rom.lean ====
section
/-! DEFINITION. `crc_table_rom`, computed by the generation algorithm that defines its contents (20_memory.md R40 to
R53). The ROM is constant from power-on and nothing writes it (R41), so it is a function and not a field of State. -/

namespace Sys2Proof.Machine

/-- The reduction pattern of a set of exponents: bit `31 - e` is set for every exponent `e` (R44). A list that is
no set of integers in [0, 31] is rejected (93_implementation_defined.md I7). -/
def reductionPattern (exponents : List Nat) : Option Word :=
  if exponents.all (· ≤ 31) ∧ exponents.Nodup then
    some (exponents.foldl (fun p e => p ||| (1#32 <<< (31 - e))) 0#32)
  else none

/-- One pass of R45's loop: `if c[0] == 1 then POLY ^ (c >> 1) else c >> 1`. -/
def shiftReduce (poly c : Word) : Word :=
  if c.getLsbD 0 then poly ^^^ (c >>> 1) else c >>> 1

/-- Entry `n` of table 0: eight passes starting from `zext_32(n)` (R45). -/
def table0 (poly : Word) (n : Byte) : Word := (shiftReduce poly)^[8] (zext32 n)

/-- One more table-0 application, `table[0][c & 0xff] ^ (c >> 8)` (R47). -/
def foldForward (poly c : Word) : Word := table0 poly (byteOf 0 c) ^^^ (c >>> 8)

/-- Entry `n` of the little-endian table `k`: table `k` folds table `k - 1` forward once (R45, R47). -/
def tableLE (poly : Word) : Nat → Byte → Word
  | 0, n => table0 poly n
  | k + 1, n => foldForward poly (tableLE poly k n)

/-- Entry `n` of table `k` for the polynomial `poly`: tables 0 to 3 by R45 and R47, and
`table[k+4][n] = byteswap32(table[k][n])` (R46, R47). -/
def romOf (poly : Word) (k : BitVec 3) (n : Byte) : Word :=
  if k.toNat < 4 then tableLE poly k.toNat n else bswap32 (tableLE poly (k.toNat - 4) n)

/-- `ROM(k, n)` of this instance (R13, R40, R42). -/
def rom (k : BitVec 3) (n : Byte) : Word := romOf Config.poly k n

/-- The ROM's 11-bit address `a = {k, n} = 256*k + n` (R56). -/
def romAddress (k : BitVec 3) (n : Byte) : BitVec 11 := k ++ n

/-- The 32-bit entry at an address of the ROM's address space; every one of the 2048 addresses has one (R56, R60). -/
def romAt (a : BitVec 11) : Word := rom (a.extractLsb' 8 3) (a.extractLsb' 0 8)

/-- The ROM image: the 2048 entries, table-major, in the order of the address (R52). -/
def romImage : List Word :=
  (List.range (Config.tables * Config.entries)).map fun a => romAt (BitVec.ofNat 11 a)

/-- A hexadecimal digit in lowercase (R52). -/
def hexDigit (d : Nat) : Char :=
  if d < 10 then Char.ofNat (48 + d) else Char.ofNat (87 + d)

/-- The printed form of an entry: `0x` and eight lowercase hexadecimal digits (R52). -/
def printEntry (v : Word) : String :=
  String.ofList ('0' :: 'x' :: [7, 6, 5, 4, 3, 2, 1, 0].map fun i => hexDigit (v.toNat / 16 ^ i % 16))

/-- The printed ROM image, one string for each entry (R52). -/
def romImageText : List String := romImage.map printEntry

/-- The byte step over a table array, `STEP8(c, b) = table[0][(c ^ zext_32(b)) & 0xFF] ^ (c >> 8)` (R14). -/
def step8Of (table : BitVec 3 → Byte → Word) (c : Word) (b : Byte) : Word :=
  table 0 (byteOf 0 (c ^^^ zext32 b)) ^^^ (c >>> 8)

/-- The design-time check of a table array (R53): the fold tables (R48), the byte-swap relation (R49) and the
source's two spot values (R50). An array that fails it is no `crc_table_rom` (93_implementation_defined.md I2). -/
def ConformingTables (table : BitVec 3 → Byte → Word) : Prop :=
  (∀ (k : Fin 4) (n : Byte),
    table (BitVec.ofNat 3 k) n = (n :: List.replicate k 0#8).foldl (step8Of table) 0#32) ∧
  (∀ (k : Fin 4) (n : Byte), table (BitVec.ofNat 3 (k + 4)) n = bswap32 (table (BitVec.ofNat 3 k) n)) ∧
  table 0 0 = 0x00000000#32 ∧ table 0 128 = 0xEDB88320#32

end Sys2Proof.Machine
end

