-- ==== Sys2Proof/Machine/Datapath.lean ====
section
/-! DEFINITION. The combinational functions of the checksum datapath (00_scope.md R14, 41_crc_datapath.md). -/

namespace Sys2Proof.Machine

/-- `STEP8(c, b) = ROM(0, (c ^ zext_32(b)) & 0xFF) ^ (c >> 8)` (R14, R110). -/
def step8 (c : Word) (b : Byte) : Word := step8Of rom c b

/-- `FOLD(c, bytes)`: STEP8 of each byte in order, starting from `c` (R14). -/
def fold (c : Word) (bytes : List Byte) : Word := bytes.foldl step8 c

/-- `CRC32(prev, bytes) = FOLD(prev ^ 0xFFFFFFFF, bytes) ^ 0xFFFFFFFF` (R14). -/
def crc32 (prev : Word) (bytes : List Byte) : Word := complement (fold (complement prev) bytes)

/-- The four lookups of the little-endian word step on `c = ACC ^ v` (R112). -/
def lookupLE (c : Word) : Word :=
  rom 3 (byteOf 0 c) ^^^ rom 2 (byteOf 1 c) ^^^ rom 1 (byteOf 2 c) ^^^ rom 0 (byteOf 3 c)

/-- The four lookups of the big-endian word step on `s = bswap32(ACC) ^ v` (R114). -/
def lookupBE (s : Word) : Word :=
  rom 4 (byteOf 0 s) ^^^ rom 5 (byteOf 1 s) ^^^ rom 6 (byteOf 2 s) ^^^ rom 7 (byteOf 3 s)

/-- The accumulator after WORDLE `v` (R112). -/
def wordStepLE (acc v : Word) : Word := lookupLE (acc ^^^ v)

/-- The accumulator after WORDBE `v`, in the non-swapped form of R24 (R114). -/
def wordStepBE (acc v : Word) : Word := bswap32 (lookupBE (bswap32 acc ^^^ v))

/-- The byte step of an implementation that keeps the accumulator in big-endian form,
`ROM(4, (s >> 24) ^ b) ^ (s << 8)` (R115). The machine does not use it; a claim says it is equivalent. -/
def swappedStep8 (s : Word) (b : Byte) : Word := rom 4 (byteOf 3 s ^^^ b) ^^^ (s <<< 8)

end Sys2Proof.Machine
end

