-- ==== Sys2Proof/Machine/State.lean ====
section
/-! DEFINITION. The state of one engine as plain data (10_state.md), its input edges, the ways a step can stop, and
the state right after reset. -/

namespace Sys2Proof.Machine

/-- The engine's input signals at one rising edge of `clk` (R21). Every signal is a defined bit
(92_eei_decisions.md D25, 93_implementation_defined.md I5). -/
structure Edge where
  /-- `rst`, synchronous, active high (R20). -/
  rst : Bool
  /-- `cmd_valid`: a command is presented at this edge (R82). -/
  cmdValid : Bool
  /-- `cmd_op`, the command opcode (R80). -/
  cmdOp : Byte
  /-- `cmd_arg`, the command operand (R80). -/
  cmdArg : Word
  deriving DecidableEq, Repr

/-- The registers of the engine, by name (R23, R26, R27). -/
inductive Reg where
  | acc
  | tblOut
  | err
  deriving DecidableEq, Repr

/-- One engine. The table ROM is constant (R41) and is the function `rom`; there is no other state (R25, R34). -/
structure State where
  /-- `ACC`, the checksum accumulator, in the non-swapped form (R23, R24). -/
  acc : Word
  /-- `TBL_OUT`, the ROM entry the last TREAD read (R26). -/
  tblOut : Word
  /-- `STATUS.ERR`, bit 0 of STATUS; bits 31:1 are reserved and read 0 (R27). -/
  err : BitVec 1
  /-- Whether a reset edge has occurred since power-on: before it no register holds a defined value (R183). -/
  resetSeen : Bool
  /-- The instance's parameter `WORD_PATH`; no step changes it (R9, R86). -/
  wordPath : Bool
  /-- The input signals at the coming rising edges, the next one first: what the host drives (R82, R167). -/
  inputs : List Edge
  deriving DecidableEq, Repr

/-- Why the machine stops with a fault. -/
inductive Fault where
  /-- A register is read before the first reset after power-on, where it holds no value (R183,
  93_implementation_defined.md I1). Raised by `readAcc` (BYTE, WORDLE, WORDBE) and by `State.sample`. Safe: the
  spec defines nothing there, and no state after reset meets it. -/
  | readBeforeReset (r : Reg)
  deriving DecidableEq, Repr

/-- Why the model gives a command no meaning. -/
inductive Refusal where
  /-- An arm of `exec` without a meaning. Raised by no command: every row of the opcode table has its meaning.
  Safe: the machine stops. -/
  | notModelled (mnemonic : String)
  deriving DecidableEq, Repr

/-- The outcome of a command or an edge. -/
abbrev Result := Host.Outcome State Fault Refusal

/-- The engine right after reset (R28, R180): `ACC = 0xFFFFFFFF`, `TBL_OUT = 0`, `ERR = 0`. No input edge is listed
yet; the host presents commands from outside (log entries 1 and 2). -/
def State.reset : State where
  acc := 0xFFFFFFFF#32
  tblOut := 0x00000000#32
  err := 0#1
  resetSeen := true
  wordPath := Config.wordPath
  inputs := []

/-- The engine after power-on and before its first reset (R183). The arguments stand for the values that are not
defined: nothing reads them, and a claim about this state holds for all of them. -/
def State.powerOn (acc tblOut : Word) (err : BitVec 1) (inputs : List Edge) : State where
  acc := acc
  tblOut := tblOut
  err := err
  resetSeen := false
  wordPath := Config.wordPath
  inputs := inputs

end Sys2Proof.Machine
end

