-- ==== Sys2Proof/Machine/Flags.lean ====
section
/-! DEFINITION. The engine's only flag, STATUS.ERR (10_state.md R27, 60_exceptions.md R150, R152). -/

namespace Sys2Proof.Machine

/-- What accepting a reserved opcode does, the engine's only error effect: `ERR <- 1`, sticky, and nothing else. No
state is saved, no mode changes and nothing is redirected (R150, R152). -/
def raiseErr (s : State) : State := { s with err := 1#1 }

/-- The STATUS register as it reads: `ERR` in bit 0 and 0 in bits 31:1 (R27, R32). -/
def statusWord (err : BitVec 1) : Word := err.setWidth 32

end Sys2Proof.Machine
end

