-- ==== Sys2Proof/Machine/Ops.lean ====
section
/-! DEFINITION. The shared operations: reading and writing registers, the reset edge, the input edges and the outputs
(10_state.md R23 to R32, 30_encoding.md R82, 70_reset_and_hazards.md R180). -/

namespace Sys2Proof.Machine

/-- A read of ACC by a data command. Before the first reset it holds no value, and the read faults (R183,
93_implementation_defined.md I1). -/
def readAcc (s : State) (use : Word → Result) : Result :=
  if s.resetSeen then use s.acc else .fault (.readBeforeReset .acc)

/-- `ACC <- v` (R13, R23). -/
def setAcc (s : State) (v : Word) : State := { s with acc := v }

/-- `TBL_OUT <- v` (R26). -/
def setTblOut (s : State) (v : Word) : State := { s with tblOut := v }

/-- The reset edge: `ACC <- 0xFFFFFFFF`, `TBL_OUT <- 0`, `ERR <- 0` (R180). -/
def resetRegisters (s : State) : State :=
  { s with acc := 0xFFFFFFFF#32, tblOut := 0x00000000#32, err := 0#1, resetSeen := true }

/-! ### Input edges -/

/-- An edge at which no command is presented and reset is not asserted (R82). -/
def idleEdge : Edge := { rst := false, cmdValid := false, cmdOp := 0#8, cmdArg := 0#32 }

/-- The command word on the command port, `{cmd_op, cmd_arg}` (R80). -/
def portWord (e : Edge) : CommandWord := commandWord e.cmdOp e.cmdArg

/-- The edge at which the host presents a command word (R82, R167). -/
def edgeOfWord (w : CommandWord) : Edge :=
  { rst := false, cmdValid := true, cmdOp := opcodeOf w, cmdArg := argOf w }

/-- The edge at which the host presents a command. -/
def edgeOf (i : Instr) : Edge := edgeOfWord (encode i)

/-- `cmd_ready` is constantly 1 (R21, R82). The model's choice (log entry 17): it is 1 before the first reset too,
where R183 defines no output. -/
def cmdReady (_ : State) : Bool := true

/-- A command is accepted at an edge with `cmd_valid = 1` and `rst = 0` (R82). -/
def accepts (e : Edge) : Bool := e.cmdValid && !e.rst

/-- The signals at the next rising edge. Where the list names none, the host presents nothing (log entry 1). -/
def nextEdge (s : State) : Edge := s.inputs.headD idleEdge

/-- The state with the next edge taken off the list. -/
def dropEdge (s : State) : State := { s with inputs := s.inputs.tail }

/-- The host lines up commands behind the edges already listed, one command at each edge. -/
def present (s : State) (commands : List Instr) : State :=
  { s with inputs := s.inputs ++ commands.map edgeOf }

/-! ### Outputs -/

/-- `crc_out = ACC ^ 0xFFFFFFFF` (R29). -/
def crcOut (s : State) : Word := complement s.acc

/-- `acc_out = ACC` (R30). -/
def accOut (s : State) : Word := s.acc

/-- `tbl_out = TBL_OUT` (R31). -/
def tblOutPort (s : State) : Word := s.tblOut

/-- `status_out = zext_32(ERR)` (R32). -/
def statusOut (s : State) : Word := statusWord s.err

/-- The four output buses (R21). -/
inductive OutPort where
  | crcOut
  | accOut
  | tblOut
  | statusOut
  deriving DecidableEq, Repr

/-- The value on an output bus of an engine that has been reset (R29 to R32). -/
def portValue (s : State) : OutPort → Word
  | .crcOut => crcOut s
  | .accOut => accOut s
  | .tblOut => tblOutPort s
  | .statusOut => statusOut s

/-- The register an output bus shows (R29 to R32). -/
def portReg : OutPort → Reg
  | .crcOut => .acc
  | .accOut => .acc
  | .tblOut => .tblOut
  | .statusOut => .err

/-- The host samples an output (R167). It changes nothing (R29). Before the first reset no output is defined, and the
sample faults (R183, 93_implementation_defined.md I1). -/
def sample (s : State) (p : OutPort) : Except Fault Word :=
  if s.resetSeen then .ok (portValue s p) else .error (.readBeforeReset (portReg p))

end Sys2Proof.Machine
end

