-- ==== Sys2Proof/Machine/Control.lean ====
section
/-! DEFINITION. The control commands NOP and INIT (40_control.md). -/

namespace Sys2Proof.Machine

/-- NOP: ACC, TBL_OUT and ERR keep their values (R100). -/
def execNop (s : State) : Result := .next s

/-- INIT: `ACC <- v ^ 0xFFFFFFFF`; ERR and TBL_OUT are unchanged (R101). -/
def execInit (v : Word) (s : State) : Result := .next (setAcc s (complement v))

end Sys2Proof.Machine
end

