-- ==== Sys2Proof/Machine/Crc.lean ====
section
/-! DEFINITION. The data commands BYTE, WORDLE and WORDBE (41_crc_datapath.md). -/

namespace Sys2Proof.Machine

/-- BYTE: `ACC <- STEP8(ACC, b)` (R110). -/
def execByte (b : Byte) (s : State) : Result :=
  readAcc s fun acc => .next (setAcc s (step8 acc b))

/-- WORDLE: four byte steps, little-endian packing (R112). Where `WORD_PATH = 0` its opcode is reserved, and
accepting it sets ERR (R86, R150). -/
def execWordle (v : Word) (s : State) : Result :=
  if s.wordPath then readAcc s fun acc => .next (setAcc s (wordStepLE acc v)) else .next (raiseErr s)

/-- WORDBE: four byte steps, big-endian packing (R114). Where `WORD_PATH = 0` its opcode is reserved, and
accepting it sets ERR (R86, R150). -/
def execWordbe (v : Word) (s : State) : Result :=
  if s.wordPath then readAcc s fun acc => .next (setAcc s (wordStepBE acc v)) else .next (raiseErr s)

end Sys2Proof.Machine
end

