-- ==== Sys2Proof/Machine/TableRead.lean ====
section
/-! DEFINITION. The table read command TREAD (42_table_read.md). -/

namespace Sys2Proof.Machine

/-- TREAD: `TBL_OUT <- ROM(k, n)`, read at ROM address `256*k + n`; ACC and ERR are unchanged (R56, R130). -/
def execTread (k : BitVec 3) (n : Byte) (s : State) : Result :=
  .next (setTblOut s (romAt (romAddress k n)))

end Sys2Proof.Machine
end

