-- ==== Sys2Proof/Machine/Dispatch.lean ====
section
/-! DEFINITION. The dispatch: one arm for each command of the opcode table (30_encoding.md R85). -/

namespace Sys2Proof.Machine

/-- An accepted command takes effect, whole, at the edge that accepts it (R62, R90). -/
def exec (i : Instr) (s : State) : Host.Outcome State Fault Refusal :=
  match i with
  | .nop => Sys2Proof.Machine.execNop s
  | .init v => Sys2Proof.Machine.execInit v s
  | .byte b => Sys2Proof.Machine.execByte b s
  | .wordle v => Sys2Proof.Machine.execWordle v s
  | .wordbe v => Sys2Proof.Machine.execWordbe v s
  | .tread k n => Sys2Proof.Machine.execTread k n s

end Sys2Proof.Machine
end

