-- ==== Sys2Proof/Machine/ClockEdge.lean ====
section
/-! DEFINITION. What a rising edge of `clk` does (30_encoding.md R82, R88 to R90, 60_exceptions.md R150, R151,
70_reset_and_hazards.md R180). -/

namespace Sys2Proof.Machine

/-- An accepted command word: a command runs, a reserved opcode sets ERR and does nothing else (R88, R150). -/
def acceptWord (w : CommandWord) (s : State) : Result :=
  match decode s.wordPath w with
  | .command i => exec i s
  | .reserved _ => .next (raiseErr s)

/-- One rising edge: reset takes priority over a command at the same edge (R151, R180), a presented command is
accepted (R82), and an idle edge changes no state (R89). -/
def clockEdge (e : Edge) (s : State) : Result :=
  if e.rst then .next (resetRegisters s)
  else if accepts e then acceptWord (portWord e) s
  else .next s

end Sys2Proof.Machine
end

