-- ==== Sys2Proof/Machine/Step.lean ====
section
/-! DEFINITION. One step of the machine: the next rising edge of `clk` (10_state.md R20). -/

namespace Sys2Proof.Machine

/-- The next rising edge, with the signals the host drives at it. -/
def step (s : State) : Host.Outcome State Fault Refusal :=
  clockEdge (nextEdge s) (dropEdge s)

/-- The state with a command word presented at the very next edge, ahead of the edges already listed (log entry 2). -/
def State.withFetchWord (s : State) (nbits w : Nat) : State :=
  { s with inputs := edgeOfWord (tableWord nbits w) :: s.inputs }

end Sys2Proof.Machine
end

