-- ==== Sys2Proof/Machine/Sequences.lean ====
section
/-! DEFINITION. The host's side of the two checksum functions (43_sequences.md): which commands it issues and which
buffer bytes it reads for them. The engine sees only the commands (R25). -/

namespace Sys2Proof.Machine

/-- The host's `native_byte_order` (R73, R136). -/
inductive ByteOrder where
  | le
  | be
  deriving DecidableEq, Repr

/-- One issue line of the host's pseudocode (R135, R136). -/
inductive HostOp where
  /-- `issue INIT p`. -/
  | issueInit (p : Word)
  /-- `issue BYTE MemRead(a, 1)`. -/
  | issueByte (a : Nat)
  /-- `issue WORD(order, a)`. -/
  | issueWord (order : ByteOrder) (a : Nat)
  deriving DecidableEq, Repr

/-- The issue lines that issue a WORD command (R137). -/
def isWordIssue : HostOp → Bool
  | .issueInit _ => false
  | .issueByte _ => false
  | .issueWord _ _ => true

/-- The issue lines that issue a BYTE command (R137). -/
def isByteIssue : HostOp → Bool
  | .issueInit _ => false
  | .issueByte _ => true
  | .issueWord _ _ => false

/-- The addresses an issue line reads, in increasing order (R139). -/
def readAddresses : HostOp → List Nat
  | .issueInit _ => []
  | .issueByte a => [a]
  | .issueWord _ a => [a, a + 1, a + 2, a + 3]

/-- `count` byte issues from address `a` up. -/
def issueBytes (a count : Nat) : List HostOp := (List.range count).map fun j => .issueByte (a + j)

/-- `count` word issues from address `a` up, four bytes apart. -/
def issueWords (order : ByteOrder) (a count : Nat) : List HostOp :=
  (List.range count).map fun j => .issueWord order (a + 4 * j)

/-- `count` chunks of 32 bytes from address `a` up, each eight word issues (R136). -/
def issueChunks (order : ByteOrder) (a count : Nat) : List HostOp :=
  (List.range count).flatMap fun j => issueWords order (a + 32 * j) 8

/-- The byte-wise sequence `crc32(p, BASE, len)` (R135). -/
def bytewisePlan (p : Word) (base len : Nat) : List HostOp :=
  .issueInit p :: issueBytes base len

/-- `lead`: the 0 to 3 bytes up to the first 4-byte boundary, no more than `len` (R136). -/
def leadCount (base len : Nat) : Nat := min len ((4 - base % 4) % 4)

/-- `nwords = (len - lead) div 4` (R137). -/
def wordCount (base len : Nat) : Nat := (len - leadCount base len) / 4

/-- `tail = (len - lead) mod 4` (R137). -/
def tailCount (base len : Nat) : Nat := (len - leadCount base len) % 4

/-- The accelerated sequence `crc32w(p, BASE, len, order)` (R136): the leading bytes, the 32-byte chunks while 32
bytes are left, the words while 4 bytes are left, the trailing bytes. -/
def acceleratedPlan (p : Word) (base len : Nat) (order : ByteOrder) : List HostOp :=
  let i := leadCount base len
  let chunks := (len - i) / 32
  let j := i + 32 * chunks
  let words := (len - j) / 4
  let k := j + 4 * words
  .issueInit p :: (issueBytes base i ++ issueChunks order (base + i) chunks ++
    issueWords order (base + j) words ++ issueBytes (base + k) (len - k))

/-- `WORD(order, A)`: the word assembled explicitly from the values its four reads return (R72, R136). -/
def wordCommand : ByteOrder → Byte → Byte → Byte → Byte → Instr
  | .le, b0, b1, b2, b3 => .wordle (packLE b0 b1 b2 b3)
  | .be, b0, b1, b2, b3 => .wordbe (packBE b0 b1 b2 b3)

/-- The commands issued when the reads return these values, in order: each read takes the next value, whatever the
buffer holds at another time (93_implementation_defined.md I3). Nothing where the values do not match the reads. -/
def issue : List HostOp → List Byte → Option (List Instr)
  | [], [] => some []
  | [], _ :: _ => none
  | .issueInit p :: ops, bs => (issue ops bs).map (.init p :: ·)
  | .issueByte _ :: ops, b :: bs => (issue ops bs).map (.byte b :: ·)
  | .issueByte _ :: _, [] => none
  | .issueWord order _ :: ops, b0 :: b1 :: b2 :: b3 :: bs =>
    (issue ops bs).map (wordCommand order b0 b1 b2 b3 :: ·)
  | .issueWord _ _ :: _, _ => none

/-- The host's data buffer: its first byte is at `base` (R58, R71). -/
structure Buffer where
  base : Nat
  bytes : List Byte
  deriving DecidableEq, Repr

/-- `MemRead(a, 1)`, which finds a byte only inside `[BASE, BASE + len)` (R59, R71, R139). -/
def memRead (m : Buffer) (a : Nat) : Option Byte :=
  if m.base ≤ a then m.bytes[a - m.base]? else none

/-- The values of a list of reads; nothing where one falls outside the buffer. -/
def memReads (m : Buffer) : List Nat → Option (List Byte)
  | [] => some []
  | a :: as => (memRead m a).bind fun b => (memReads m as).map (b :: ·)

/-- The commands a plan issues over an unchanging buffer. -/
def issueOver (m : Buffer) (plan : List HostOp) : Option (List Instr) :=
  (memReads m (plan.flatMap readAddresses)).bind (issue plan)

/-- The commands of `crc32(p, data)` over a buffer (R135). -/
def bytewiseCommands (p : Word) (m : Buffer) : Option (List Instr) :=
  issueOver m (bytewisePlan p m.base m.bytes.length)

/-- The commands of `crc32_word_at_a_time(p, data, order)` over a buffer (R136). -/
def acceleratedCommands (p : Word) (m : Buffer) (order : ByteOrder) : Option (List Instr) :=
  issueOver m (acceleratedPlan p m.base m.bytes.length order)

/-- The host self-test's commands: TREAD of every ROM address in order (R131). -/
def selfTestCommands : List Instr :=
  (List.range (Config.tables * Config.entries)).map fun a =>
    .tread (tableOperand (BitVec.ofNat 32 a)) (entryOperand (BitVec.ofNat 32 a))

end Sys2Proof.Machine
end

