-- ==== Sys2Proof/Machine/Assembler.lean ====
section
/-! DEFINITION. The assembly language of 30_encoding.md R91 and R92: its lines, the check of their operands, their
expansion into commands, and the reading of a line of text. Log entry 9 names what R91 leaves open. -/

namespace Sys2Proof.Machine

/-- A line of assembly source (R91) or a pseudo-instruction (R92), with its operands as written. -/
inductive AsmLine where
  | nop
  | init (imm32 : Nat)
  | byte (imm8 : Nat)
  | wordle (imm32 : Nat)
  | wordbe (imm32 : Nat)
  | tread (k n : Nat)
  | bytes (bs : List Nat)
  | str (codes : List Nat)
  | resume (r : Nat)
  | crc32 (p : Nat) (bs : List Nat)
  | crc32w (p : Nat) (bs : List Nat) (base : Nat) (order : ByteOrder)
  deriving DecidableEq, Repr

/-- An operand of `imm32` is in 0..0xFFFFFFFF (R91). -/
def imm32Ok (v : Nat) : Bool := v < 4294967296

/-- An operand of `imm8` is in 0..0xFF (R91). -/
def imm8Ok (v : Nat) : Bool := v < 256

/-- The operands of a line are in range (R91). That the `base` of `CRC32W` has no range is the model's choice (log
entry 9). -/
def AsmLine.wellFormed : AsmLine → Bool
  | .nop => true
  | .init v => imm32Ok v
  | .byte b => imm8Ok b
  | .wordle v => imm32Ok v
  | .wordbe v => imm32Ok v
  | .tread k n => decide (k < 8) && imm8Ok n
  | .bytes bs => bs.all imm8Ok
  | .str codes => codes.all fun c => decide (c < 128)
  | .resume r => imm32Ok r
  | .crc32 p bs => imm32Ok p && bs.all imm8Ok
  | .crc32w p bs _ _ => imm32Ok p && bs.all imm8Ok

/-- A byte operand as a data byte. -/
def dataByte (b : Nat) : Byte := BitVec.ofNat 8 b

/-- The commands of a line whose operands are in range: a pseudo-instruction is its expansion (R92). That
a list of no bytes has an expansion is the model's choice (log entry 9). -/
def expand : AsmLine → Option (List Instr)
  | .nop => some [.nop]
  | .init v => some [.init (BitVec.ofNat 32 v)]
  | .byte b => some [.byte (dataByte b)]
  | .wordle v => some [.wordle (BitVec.ofNat 32 v)]
  | .wordbe v => some [.wordbe (BitVec.ofNat 32 v)]
  | .tread k n => some [.tread (BitVec.ofNat 3 k) (dataByte n)]
  | .bytes bs => some (bs.map fun b => .byte (dataByte b))
  | .str codes => some (codes.map fun c => .byte (dataByte c))
  | .resume r => some [.init (BitVec.ofNat 32 r)]
  | .crc32 p bs => some (.init (BitVec.ofNat 32 p) :: bs.map fun b => .byte (dataByte b))
  | .crc32w p bs base order =>
    acceleratedCommands (BitVec.ofNat 32 p) { base := base, bytes := bs.map dataByte } order

/-- The assembler: it refuses a line with an operand out of range, and gives the commands of any other (R91, R92). -/
def assembleLine (l : AsmLine) : Option (List Instr) :=
  if l.wellFormed then expand l else none

/-! ### The text of a line -/

/-- A token of a line of text. -/
inductive Token where
  | word (cs : List Char)
  | number (n : Nat)
  | character (code : Nat)
  | quoted (codes : List Nat)
  | comma
  deriving DecidableEq, Repr

/-- The value of a digit in bases up to 16, either case. -/
def digitValue (c : Char) : Option Nat :=
  if '0' ≤ c ∧ c ≤ '9' then some (c.toNat - 48)
  else if 'a' ≤ c ∧ c ≤ 'f' then some (c.toNat - 87)
  else if 'A' ≤ c ∧ c ≤ 'F' then some (c.toNat - 55)
  else none

/-- The value of a run of digits in a base, after the value `acc` of the digits before it. -/
def digitsValue (radix : Nat) : Nat → List Char → Option Nat
  | acc, [] => some acc
  | acc, c :: cs =>
    match digitValue c with
    | some d => if d < radix then digitsValue radix (radix * acc + d) cs else none
    | none => none

/-- A number: `0x`-prefixed hexadecimal or decimal, the notation R91 gives `imm32`. That `imm8`, `k`, `n` and
`base` take both notations too is the model's choice (log entry 9). -/
def numberValue : List Char → Option Nat
  | [] => none
  | '0' :: 'x' :: c :: cs => digitsValue 16 0 (c :: cs)
  | c :: cs => digitsValue 10 0 (c :: cs)

/-- The characters of a word or a number. -/
def wordChar (c : Char) : Bool := c.isAlphanum

/-- The token of a run of word characters: a number where it begins with a decimal digit. -/
def wordToken (cs : List Char) : Option Token :=
  match cs with
  | [] => none
  | c :: _ => if c.isDigit then (numberValue cs).map .number else some (.word cs)

/-- The codes up to the closing double quote, and the text after it. The model's choice (log entry 9): the text of
`STR` may be empty, which is a line of no command, while `BYTES` with no operand is refused. -/
def quotedText : List Char → Option (List Nat × List Char)
  | [] => none
  | '"' :: cs => some ([], cs)
  | c :: cs => (quotedText cs).map fun (codes, rest) => (c.toNat :: codes, rest)

/-- The tokens of a line. A `;` starts a comment (R91); blanks separate. The fuel is the line's length. The model's choice
(log entry 9): no blank need stand between the mnemonic and a quoted operand, nor beside a comma. -/
def tokens : Nat → List Char → Option (List Token)
  | _, [] => some []
  | 0, _ :: _ => none
  | fuel + 1, c :: cs =>
    if c = ';' then some []
    else if c = ' ' ∨ c = '\t' then tokens fuel cs
    else if c = ',' then (tokens fuel cs).map (.comma :: ·)
    else if c = '"' then
      (quotedText cs).bind fun (codes, rest) => (tokens fuel rest).map (.quoted codes :: ·)
    else if c = '\'' then
      match cs with
      | ch :: '\'' :: rest =>
        if ch.toNat < 128 then (tokens fuel rest).map (.character ch.toNat :: ·) else none
      | _ => none
    else if wordChar c then
      (wordToken (c :: cs.takeWhile wordChar)).bind fun t =>
        (tokens fuel (cs.dropWhile wordChar)).map (t :: ·)
    else none

/-- An operand of `imm8`: a number, or a character literal for its code. No other operand is a character literal
(R91). -/
def byteOperand : Token → Option Nat
  | .number n => some n
  | .character code => some code
  | _ => none

/-- A comma-separated list of the operands of `BYTES`, up to the end of the line: each one is the operand of a `BYTE`
(R92). -/
def byteList : List Token → Option (List Nat)
  | [t] => (byteOperand t).map ([·])
  | t :: .comma :: ts => (byteOperand t).bind fun b => (byteList ts).map (b :: ·)
  | _ => none

/-- The operands of `CRC32W` after the seed: `<bytes>, base, order` (R92). -/
def wordSequenceOperands : List Token → Option (List Nat × Nat × ByteOrder)
  | [.number base, .comma, .word ['l', 'e']] => some ([], base, .le)
  | [.number base, .comma, .word ['b', 'e']] => some ([], base, .be)
  | t :: .comma :: ts =>
    (byteOperand t).bind fun b => (wordSequenceOperands ts).map fun (bs, base, order) => (b :: bs, base, order)
  | _ => none

/-- A line's mnemonic and operands (R91, R92). -/
def lineOf (mnemonic : String) (operands : List Token) : Option AsmLine :=
  match mnemonic, operands with
  | "NOP", [] => some .nop
  | "INIT", [.number v] => some (.init v)
  | "BYTE", [t] => (byteOperand t).map .byte
  | "WORDLE", [.number v] => some (.wordle v)
  | "WORDBE", [.number v] => some (.wordbe v)
  | "TREAD", [.number k, .comma, .number n] => some (.tread k n)
  | "BYTES", ts => (byteList ts).map .bytes
  | "STR", [.quoted codes] => some (.str codes)
  | "RESUME", [.number r] => some (.resume r)
  | "CRC32", [.number p] => some (.crc32 p [])
  | "CRC32", .number p :: .comma :: ts => (byteList ts).map (.crc32 p)
  | "CRC32W", .number p :: .comma :: ts =>
    (wordSequenceOperands ts).map fun (bs, base, order) => .crc32w p bs base order
  | _, _ => none

/-- The commands of one line of text: none for a blank or comment line; nothing where the assembler refuses it. -/
def assembleText (line : String) : Option (List Instr) :=
  match tokens line.toList.length line.toList with
  | none => none
  | some [] => some []
  | some (.word m :: ts) => (lineOf (String.ofList m) ts).bind assembleLine
  | some _ => none

/-- The command words of a program, one line each (R91). -/
def assemble : List String → Option (List CommandWord)
  | [] => some []
  | line :: lines =>
    (assembleText line).bind fun is => (assemble lines).map (is.map encode ++ ·)

end Sys2Proof.Machine
end

