-- ==== Sys2Proof/Machine/Platform.lean ====
section
/-! DEFINITION. Several engines sharing one table ROM (60_exceptions.md R165, 93_implementation_defined.md I9). -/

namespace Sys2Proof.Machine

/-- `N_ENGINES` engines, each with its own registers, command port and outputs. The ROM they share is constant. -/
structure Platform where
  engines : List State
  deriving DecidableEq, Repr

/-- `N_ENGINES >= 1` (R9). -/
def platformWellFormed (p : Platform) : Bool := !p.engines.isEmpty

/-- One engine of the platform has a rising edge. No arbitration is visible (R165), so edges of several engines are
single edges in any order (log entry 6). A number no engine has names no edge. The model's choice where the spec is
silent (log entry 6): a register read of one engine before its first reset (I1) stops the whole platform with that
engine's fault. -/
def platformEdge (p : Platform) (i : Nat) : Host.Outcome Platform Fault Refusal :=
  match p.engines[i]? with
  | none => .next p
  | some s =>
    match step s with
    | .next t => .next { engines := p.engines.set i t }
    | .fault r => .fault r
    | .refused r => .refused r

end Sys2Proof.Machine
end

