-- ==== Sys2Proof/Machine/History.lean ====
section
/-! DEFINITION. What the edges so far amount to: the seed of the last INIT, or of reset taken as `INIT 0`, and the
stream bytes accepted since (10_state.md R35). It is bookkeeping for claims and no part of State. -/

namespace Sys2Proof.Machine

/-- The seed `p` and the stream `S` of rule R35. -/
structure History where
  seed : Word
  stream : List Byte
  deriving DecidableEq, Repr

/-- What ACC means at a cycle boundary, `FOLD(p ^ 0xFFFFFFFF, S)` (R35). -/
def historyAcc (h : History) : Word := fold (complement h.seed) h.stream

/-- A command's part in the history: INIT starts a stream, a data command adds its bytes in stream order (R35). -/
def historyCommand (i : Instr) (h : History) : History :=
  match i with
  | .nop => h
  | .init v => { seed := v, stream := [] }
  | .byte _ => { h with stream := h.stream ++ streamBytes i }
  | .wordle _ => { h with stream := h.stream ++ streamBytes i }
  | .wordbe _ => { h with stream := h.stream ++ streamBytes i }
  | .tread _ _ => h

/-- An edge's part in the history of an instance whose `WORD_PATH` is `wordPath` (R35, R180). -/
def historyEdge (wordPath : Bool) (h : History) (e : Edge) : History :=
  if e.rst then { seed := 0#32, stream := [] }
  else if accepts e then
    match decode wordPath (portWord e) with
    | .command i => historyCommand i h
    | .reserved _ => h
  else h

/-- The history after a run of edges. -/
def historyEdges (wordPath : Bool) (es : List Edge) (h : History) : History :=
  es.foldl (historyEdge wordPath) h

end Sys2Proof.Machine
end

