-- ==== Sys2Proof/Safety.lean ====
section
/-! DEFINITION. What counts as a safe run, in the terms claims use (60_exceptions.md R140, 10_state.md R26). -/

namespace Sys2Proof

/-- What holds of every state a run from reset reaches: a reset has been seen, and TBL_OUT holds an entry of the ROM
(R26: only TREAD and reset write it; `ROM(0, 0) = 0`). -/
def Machine.State.Inv (s : Machine.State) : Prop :=
  s.resetSeen = true ∧ ∃ a : BitVec 11, s.tblOut = Machine.romAt a

/-- A run of `n` edges that neither faults nor refuses (R140). -/
def SafeFor (n : Nat) (s : Machine.State) : Prop := ∃ t, Host.Core.run core n s = .next t

/-- The registers of two states agree (R23, R26, R27). -/
def Machine.State.SameRegisters (s t : Machine.State) : Prop :=
  s.acc = t.acc ∧ s.tblOut = t.tblOut ∧ s.err = t.err

end Sys2Proof
end

