-- ==== Sys2Proof/Certificates/Slice0/Obligations.lean ====
section
/-! DEFINITION. The statements for the provers. Each docstring names the rules of spec/ it formalises. -/

open Sys2Proof Sys2Proof.Machine

/-! ### Reset, idle edges and acceptance -/

/-- R180: at an edge with `rst = 1` the three registers take their reset values and a command presented at that edge
is not accepted, whatever the command port holds. The ROM is a constant function, so no edge affects it. -/
def Obligations.ResetEdgeLoadsResetValues : Prop :=
  ∀ (s : State) (e : Edge) (rest : List Edge), s.inputs = e :: rest → e.rst = true →
    step s = .next { s with
      acc := 0xFFFFFFFF#32, tblOut := 0x00000000#32, err := 0#1, resetSeen := true, inputs := rest }

/-- R28, R181: the reset values, the zero they give at `crc_out`, and `INIT 0` writing the same ACC as reset. -/
def Obligations.ResetStateHoldsResetValues : Prop :=
  State.reset.acc = 0xFFFFFFFF#32 ∧ State.reset.tblOut = 0x00000000#32 ∧ State.reset.err = 0#1 ∧
    crcOut State.reset = 0x00000000#32 ∧ statusOut State.reset = 0x00000000#32 ∧
    ∀ s : State, exec (.init 0#32) s = .next { s with acc := State.reset.acc }

/-- R183, R184: whatever the registers hold after power-on, one edge with `rst = 1` leaves the reset state. That the
edges not yet used stay listed is the model's (log entry 1). -/
def Obligations.OneResetEdgeBootsTheEngine : Prop :=
  ∀ (acc tblOut : Word) (err : BitVec 1) (e : Edge) (rest : List Edge), e.rst = true →
    step (State.powerOn acc tblOut err (e :: rest)) = .next { State.reset with inputs := rest }

/-- R89: an edge that accepts no command writes no register except as reset writes them. -/
def Obligations.EdgeWithoutCommandKeepsRegisters : Prop :=
  ∀ (s : State) (e : Edge) (rest : List Edge), s.inputs = e :: rest → (e.cmdValid = false ∨ e.rst = true) →
    step s = .next (if e.rst then { resetRegisters s with inputs := rest } else { s with inputs := rest })

/-- The model's choice (log entry 1): where no edge is listed the host presents nothing, and the edge keeps all
state, as R82 says of an edge with `cmd_valid = 0`. -/
def Obligations.UnlistedEdgeIsIdle : Prop :=
  ∀ s : State, s.inputs = [] → step s = .next s

/-- R82, R88, R90: when the word at the command port decodes to a command and the edge accepts it, the step is that
command's `exec`, with the edge taken off the list. -/
def Obligations.StepRunsTheDecodedCommand : Prop :=
  ∀ (s : State) (e : Edge) (rest : List Edge) (i : Instr),
    s.inputs = e :: rest → e.rst = false → e.cmdValid = true →
    decode s.wordPath (commandWord e.cmdOp e.cmdArg) = .command i →
    step s = exec i { s with inputs := rest }

/-- R82, R88: a command that the instance has, presented by the host as its encoded word, is what the next step
runs. -/
def Obligations.PresentedCommandRunsNext : Prop :=
  ∀ (s : State) (i : Instr), i.wellFormed s.wordPath = true →
    step (s.withFetchWord 40 (encode i).toNat) = exec i s

/-- R62, R76, R185: of two commands at consecutive edges, the second runs on the whole state the first leaves, with
no gap and nothing between them. -/
def Obligations.NextCommandSeesTheOneBefore : Prop :=
  ∀ (s t : State) (i j : Instr) (rest : List Edge),
    i.wellFormed s.wordPath = true → j.wellFormed s.wordPath = true →
    s.inputs = edgeOf i :: edgeOf j :: rest →
    exec i { s with inputs := edgeOf j :: rest } = .next t →
    Host.Core.run core 1 s = .next t ∧ step t = exec j { t with inputs := rest }

/-! ### Decoding and encoding -/

/-- R83, R88: every opcode is decoded to its command with its operand fields, in both settings of `WORD_PATH`, and
every other opcode is reserved. -/
def Obligations.DecoderReadsEveryOpcode : Prop :=
  ∀ (wordPath : Bool) (arg : Word),
    decode wordPath (commandWord 0x00#8 arg) = .command .nop ∧
    decode wordPath (commandWord 0x01#8 arg) = .command (.init arg) ∧
    decode wordPath (commandWord 0x10#8 arg) = .command (.byte (arg.extractLsb' 0 8)) ∧
    decode wordPath (commandWord 0x20#8 arg) =
      (if wordPath then .command (.wordle arg) else .reserved 0x20#8) ∧
    decode wordPath (commandWord 0x21#8 arg) =
      (if wordPath then .command (.wordbe arg) else .reserved 0x21#8) ∧
    decode wordPath (commandWord 0x30#8 arg) =
      .command (.tread (arg.extractLsb' 8 3) (arg.extractLsb' 0 8)) ∧
    ∀ op : Byte, op ∉ [0x00#8, 0x01#8, 0x10#8, 0x20#8, 0x21#8, 0x30#8] →
      decode wordPath (commandWord op arg) = .reserved op

/-- R85: with `WORD_PATH = 1` the reserved opcodes are 02 to 0F, 11 to 1F, 22 to 2F and 31 to FF, 250 values. -/
def Obligations.ReservedOpcodesAreTheFourRanges : Prop :=
  (∀ (op : Byte) (arg : Word), decode true (commandWord op arg) = .reserved op ↔
    (0x02 ≤ op.toNat ∧ op.toNat ≤ 0x0F) ∨ (0x11 ≤ op.toNat ∧ op.toNat ≤ 0x1F) ∨
    (0x22 ≤ op.toNat ∧ op.toNat ≤ 0x2F) ∨ (0x31 ≤ op.toNat ∧ op.toNat ≤ 0xFF)) ∧
  ((List.range 256).filter fun n =>
    decide (decode true (commandWord (BitVec.ofNat 8 n) 0#32) = .reserved (BitVec.ofNat 8 n))).length = 250

/-- R80, R83, R88: for every command an instance has, with every operand at every value, decoding its encoded word
gives it back. -/
def Obligations.DecodeOfEncodeIsTheCommand : Prop :=
  ∀ (wordPath : Bool) (i : Instr), i.wellFormed wordPath = true → decode wordPath (encode i) = .command i

/-- R83, R84: encoding what a word decodes to gives that word with 0 in its ignored bits, so a decoding drops no
other bit. -/
def Obligations.EncodeOfDecodeClearsIgnoredBits : Prop :=
  ∀ (wordPath : Bool) (w : CommandWord) (i : Instr), decode wordPath w = .command i →
    encode i = clearIgnored w ∧ i.wellFormed wordPath = true

/-- R84: two words that differ in ignored operand bits only decode alike and an edge that presents either does the
same; the encoder writes 0 in the ignored bits; none of them makes an assigned opcode a reserved one. -/
def Obligations.IgnoredBitsHaveNoEffect : Prop :=
  (∀ (wordPath : Bool) (w w' : CommandWord), clearIgnored w = clearIgnored w' →
    decode wordPath w = decode wordPath w') ∧
  (∀ (s : State) (w w' : CommandWord) (rest : List Edge), clearIgnored w = clearIgnored w' →
    step { s with inputs := edgeOfWord w :: rest } = step { s with inputs := edgeOfWord w' :: rest }) ∧
  ∀ i : Instr, clearIgnored (encode i) = encode i

/-- R80, R85: words written out from the opcode map's encodings decode to the commands they stand for. -/
def Obligations.WrittenOutWordsDecode : Prop :=
  decode true 0b00000000_00000000_00000000_00000000_00000000#40 = .command .nop ∧
  decode true 0b00000001_11001011_11110100_00111001_00100110#40 = .command (.init 0xCBF43926#32) ∧
  decode true 0b00010000_00000000_00000000_00000000_00110001#40 = .command (.byte 0x31#8) ∧
  decode true 0b00100000_00110100_00110011_00110010_00110001#40 = .command (.wordle 0x34333231#32) ∧
  decode true 0b00100001_00110001_00110010_00110011_00110100#40 = .command (.wordbe 0x31323334#32) ∧
  decode true 0b00110000_00000000_00000000_00000111_11111111#40 = .command (.tread 7#3 0xFF#8) ∧
  decode true 0b11111111_00000000_00000000_00000000_00000000#40 = .reserved 0xFF#8

/-! ### The commands -/

/-- R100: NOP completes in every state and changes nothing, whatever its operand field holds, and an edge that
presents it does what an edge with `cmd_valid = 0` does. -/
def Obligations.NopKeepsAllState : Prop :=
  (∀ s : State, exec .nop s = .next s) ∧
  ∀ (s : State) (e : Edge) (rest : List Edge),
    s.inputs = e :: rest → e.rst = false → e.cmdValid = true → e.cmdOp = 0x00#8 →
    step s = .next { s with inputs := rest } ∧
    step s = step { s with inputs := { e with cmdValid := false } :: rest }

/-- R101: opcode 01 with all of the operand is INIT, and INIT completes in every state with `ACC = v ^ 0xFFFFFFFF`
and nothing else changed. -/
def Obligations.InitLoadsTheComplementedSeed : Prop :=
  ∀ (s : State) (v : Word),
    decode s.wordPath (commandWord 0x01#8 v) = .command (.init v) ∧
    exec (.init v) s = .next { s with acc := v ^^^ 0xFFFFFFFF#32 }

/-- The spec's inferences under R101 (`crc_out = v` after INIT `v`) and R102 (`INIT crc_out` writes the ACC that is
there already). -/
def Obligations.InitAndTheResultAreInverse : Prop :=
  ∀ s : State, exec (.init (crcOut s)) s = .next s ∧
    ∀ (v : Word) (t : State), exec (.init v) s = .next t → crcOut t = v

/-- R110: opcode 10 is BYTE of `arg[7:0]`, and BYTE completes with `ACC = ROM(0, ACC[7:0] ^ b) ^ (ACC >> 8)` and
nothing else changed. -/
def Obligations.ByteFoldsOneByte : Prop :=
  ∀ (s : State) (arg : Word) (b : Byte), s.resetSeen = true →
    decode s.wordPath (commandWord 0x10#8 arg) = .command (.byte (arg.extractLsb' 0 8)) ∧
    exec (.byte b) s =
      .next { s with acc := rom 0 (s.acc.extractLsb' 0 8 ^^^ b) ^^^ (s.acc >>> 8) }

/-- R112 and R86: where `WORD_PATH = 1`, opcode 20 with all of the operand is WORDLE, and WORDLE completes with the
four lookups of `c = ACC ^ v` in tables 3, 2, 1 and 0, and nothing else changed; where `WORD_PATH = 0` the opcode is
reserved. That `exec` of WORDLE there sets ERR is the model's choice (log entry 5): the decoder gives no WORDLE there,
so no step reaches it. -/
def Obligations.WordleFoldsThroughTablesThreeToZero : Prop :=
  ∀ (s : State) (v : Word), s.resetSeen = true →
    (s.wordPath = true → decode s.wordPath (commandWord 0x20#8 v) = .command (.wordle v) ∧
      exec (.wordle v) s = .next { s with
        acc := rom 3 ((s.acc ^^^ v).extractLsb' 0 8) ^^^ rom 2 ((s.acc ^^^ v).extractLsb' 8 8) ^^^
          rom 1 ((s.acc ^^^ v).extractLsb' 16 8) ^^^ rom 0 ((s.acc ^^^ v).extractLsb' 24 8) }) ∧
    (s.wordPath = false → decode s.wordPath (commandWord 0x20#8 v) = .reserved 0x20#8 ∧
      exec (.wordle v) s = .next { s with err := 1#1 })

/-- The formula the spec derives under R114: where `WORD_PATH = 1`, opcode 21 with all of the operand is WORDBE, and
WORDBE completes with the four lookups of `bswap32(ACC) ^ v` in tables 4 to 7, swapped back, and nothing else
changed; where `WORD_PATH = 0` the opcode is reserved (R86). That `exec` of WORDBE there sets ERR is the model's choice
(log entry 5): the decoder gives no WORDBE there, so no step reaches it. -/
def Obligations.WordbeFoldsThroughTablesFourToSeven : Prop :=
  ∀ (s : State) (v : Word), s.resetSeen = true →
    (s.wordPath = true → decode s.wordPath (commandWord 0x21#8 v) = .command (.wordbe v) ∧
      exec (.wordbe v) s = .next { s with
        acc := bswap32 (rom 4 ((bswap32 s.acc ^^^ v).extractLsb' 0 8) ^^^
          rom 5 ((bswap32 s.acc ^^^ v).extractLsb' 8 8) ^^^
          rom 6 ((bswap32 s.acc ^^^ v).extractLsb' 16 8) ^^^
          rom 7 ((bswap32 s.acc ^^^ v).extractLsb' 24 8)) }) ∧
    (s.wordPath = false → decode s.wordPath (commandWord 0x21#8 v) = .reserved 0x21#8 ∧
      exec (.wordbe v) s = .next { s with err := 1#1 })

/-- The spec's corner case under R114: `WORDBE v` always equals `WORDLE bswap32(v)` from the same ACC, in every
state. -/
def Obligations.WordbeIsWordleOfTheSwappedWord : Prop :=
  ∀ (s : State) (v : Word), exec (.wordbe v) s = exec (.wordle (bswap32 v)) s

/-- R130: opcode 30 is TREAD of `k = arg[10:8]` and `n = arg[7:0]`, and TREAD completes in every state with `TBL_OUT
= ROM(k, n)`, the entry at ROM address `256*k + n`, and nothing else changed. -/
def Obligations.TreadLoadsTheRomEntry : Prop :=
  ∀ (s : State) (arg : Word) (k : BitVec 3) (n : Byte),
    decode s.wordPath (commandWord 0x30#8 arg) =
      .command (.tread (arg.extractLsb' 8 3) (arg.extractLsb' 0 8)) ∧
    exec (.tread k n) s = .next { s with tblOut := rom k n } ∧
    romAt (BitVec.ofNat 11 (256 * k.toNat + n.toNat)) = rom k n

/-- R150: accepting an opcode that R85 and R86 do not assign sets ERR, sticky, and changes nothing else, whatever
the operand. -/
def Obligations.ReservedOpcodeOnlySetsErr : Prop :=
  ∀ (s : State) (e : Edge) (rest : List Edge),
    s.inputs = e :: rest → e.rst = false → e.cmdValid = true →
    e.cmdOp ∉ [0x00#8, 0x01#8, 0x10#8, 0x30#8] →
    (s.wordPath = true → e.cmdOp ≠ 0x20#8 ∧ e.cmdOp ≠ 0x21#8) →
    step s = .next { s with err := 1#1, inputs := rest }

/-- R86: where `WORD_PATH = 0`, accepting opcode 20 or 21 sets ERR and changes nothing else. -/
def Obligations.WordOpcodesAreReservedWithoutTheWordPath : Prop :=
  ∀ (s : State) (e : Edge) (rest : List Edge),
    s.inputs = e :: rest → e.rst = false → e.cmdValid = true → s.wordPath = false →
    (e.cmdOp = 0x20#8 ∨ e.cmdOp = 0x21#8) →
    step s = .next { s with err := 1#1, inputs := rest }

/-- 93_implementation_defined.md I1, R183: before the first reset ACC holds no value, and a data command, which
reads it, faults. That the other commands still complete there is the model's reading (log entry 3). -/
def Obligations.DataCommandBeforeResetFaults : Prop :=
  ∀ (s : State) (b : Byte) (v : Word), s.resetSeen = false →
    exec (.byte b) s = .fault (.readBeforeReset .acc) ∧
    (s.wordPath = true → exec (.wordle v) s = .fault (.readBeforeReset .acc) ∧
      exec (.wordbe v) s = .fault (.readBeforeReset .acc))

/-! ### Outputs -/

/-- R29, R30, R31, R32: the four outputs as functions of the registers in every state, which is what a host's sample
after reset gives; bits 31:1 of the status output are 0. -/
def Obligations.OutputsShowTheRegisters : Prop :=
  ∀ s : State,
    crcOut s = s.acc ^^^ 0xFFFFFFFF#32 ∧ accOut s = s.acc ∧ tblOutPort s = s.tblOut ∧
    statusOut s = s.err.setWidth 32 ∧ (∀ i, 0 < i → (statusOut s).getLsbD i = false) ∧
    (s.resetSeen = true →
      sample s .crcOut = .ok (crcOut s) ∧ sample s .accOut = .ok (accOut s) ∧
      sample s .tblOut = .ok (tblOutPort s) ∧ sample s .statusOut = .ok (statusOut s))

/-- R183, 93_implementation_defined.md I1: before the first reset no output is defined, and a sample faults. -/
def Obligations.NoOutputBeforeReset : Prop :=
  ∀ (s : State) (p : OutPort), s.resetSeen = false →
    ∃ r, sample s p = .error (.readBeforeReset r)

/-! ### What writes each register -/

/-- R23: an edge that changes ACC is a reset edge or accepts INIT, BYTE, WORDLE or WORDBE. -/
def Obligations.AccIsWrittenOnlyByInitDataAndReset : Prop :=
  ∀ s t : State, step s = .next t → t.acc ≠ s.acc →
    (nextEdge s).rst = true ∨
    (accepts (nextEdge s) = true ∧ ∃ i, decode s.wordPath (portWord (nextEdge s)) = .command i ∧
      ((∃ v, i = .init v) ∨ (∃ b, i = .byte b) ∨ (∃ v, i = .wordle v) ∨ ∃ v, i = .wordbe v))

/-- R26: an edge that accepts TREAD leaves the entry read in TBL_OUT, and an edge that changes TBL_OUT accepts a
TREAD or is a reset edge. -/
def Obligations.TblOutIsWrittenOnlyByTreadAndReset : Prop :=
  (∀ (s t : State) (k : BitVec 3) (n : Byte), step s = .next t → accepts (nextEdge s) = true →
    decode s.wordPath (portWord (nextEdge s)) = .command (.tread k n) → t.tblOut = rom k n) ∧
  ∀ s t : State, step s = .next t → t.tblOut ≠ s.tblOut →
    (nextEdge s).rst = true ∨
    (accepts (nextEdge s) = true ∧ ∃ k n, decode s.wordPath (portWord (nextEdge s)) = .command (.tread k n))

/-- R27: STATUS reads ERR in bit 0 and 0 in bits 31:1, and an edge that changes ERR either sets it by accepting a
reserved opcode or clears it by reset; so no command clears it, INIT among them. -/
def Obligations.ErrIsSetByReservedOpcodesAndClearedByReset : Prop :=
  (∀ s : State, (statusOut s).getLsbD 0 = s.err.getLsbD 0 ∧ ∀ i, 0 < i → (statusOut s).getLsbD i = false) ∧
  ∀ s t : State, step s = .next t → t.err ≠ s.err →
    ((nextEdge s).rst = true ∧ t.err = 0#1) ∨
    ((nextEdge s).rst = false ∧ t.err = 1#1 ∧ accepts (nextEdge s) = true ∧
      ∃ op, decode s.wordPath (portWord (nextEdge s)) = .reserved op)

/-- The frame of the six commands (R23, R26, R27, R34): a command leaves every register unchanged but its
destination register, and the rest of the state unchanged. The one exception is the model's choice (log entry 5):
where a command changes ERR, it is a word command where `WORD_PATH = 0`, which the decoder gives nowhere, and it sets
ERR and leaves ACC and TBL_OUT unchanged. -/
def Obligations.CommandsWriteOnlyTheirDestination : Prop :=
  ∀ (i : Instr) (s t : State), exec i s = .next t →
    (t.acc ≠ s.acc →
      (∃ v, i = .init v) ∨ (∃ b, i = .byte b) ∨ (∃ v, i = .wordle v) ∨ ∃ v, i = .wordbe v) ∧
    (t.tblOut ≠ s.tblOut → ∃ k n, i = .tread k n) ∧
    (t.err ≠ s.err → i.wellFormed s.wordPath = false ∧ t.err = 1#1 ∧ t.acc = s.acc ∧ t.tblOut = s.tblOut) ∧
    t.resetSeen = s.resetSeen ∧ t.wordPath = s.wordPath ∧ t.inputs = s.inputs

/-! ### The table ROM -/

/-- R45, R46, R47: the generation algorithm, with the polynomial and the loop written out. -/
def Obligations.RomFollowsTheGenerationAlgorithm : Prop :=
  (∀ n : Byte, rom 0 n =
    (fun c : Word => if c.getLsbD 0 then 0xEDB88320#32 ^^^ (c >>> 1) else c >>> 1)^[8] (n.setWidth 32)) ∧
  (∀ n : Byte, rom 4 n = bswap32 (rom 0 n)) ∧
  ∀ (k : Nat) (n : Byte), 1 ≤ k → k ≤ 3 →
    rom (BitVec.ofNat 3 k) n = rom 0 ((rom (BitVec.ofNat 3 (k - 1)) n).extractLsb' 0 8) ^^^
      (rom (BitVec.ofNat 3 (k - 1)) n >>> 8) ∧
    rom (BitVec.ofNat 3 (k + 4)) n = bswap32 (rom (BitVec.ofNat 3 k) n)

/-- The design-time check of R53: a fold table is the byte followed by zero bytes (the spec's inference under R48),
the upper tables are the swapped lower ones (R49), and the source's two spot values hold (R50). The two relations
hold for the tables of every polynomial, since R9 lets a model take `POLY` as an argument. -/
def Obligations.RomPassesTheDesignTimeCheck : Prop :=
  ConformingTables rom ∧
  ∀ (poly : Word) (k : Fin 4) (n : Byte),
    romOf poly (BitVec.ofNat 3 k) n = (n :: List.replicate k 0#8).foldl (step8Of (romOf poly)) 0#32 ∧
    romOf poly (BitVec.ofNat 3 (k + 4)) n = bswap32 (romOf poly (BitVec.ofNat 3 k) n)

/-- The spec's inference R51: every table is linear over GF(2). -/
def Obligations.RomIsLinear : Prop :=
  ∀ (k : BitVec 3) (a b : Byte), rom k (a ^^^ b) = rom k a ^^^ rom k b ∧ rom k 0#8 = 0#32

/-- R44 (with the pattern the spec infers for the 14 exponents): for a set of exponents in [0, 31], exactly the bits
`31 - e` of the reduction pattern are set; a list with an exponent above 31 or one that stands twice has no pattern
(93_implementation_defined.md I7); and the 14 exponents of R9 give `POLY`. R44 takes a set of 14 integers: that a set
of any other size has a pattern is the model's choice (log entry 13). -/
def Obligations.ReductionPatternSetsBitPerExponent : Prop :=
  (∀ l : List Nat, (∀ e ∈ l, e ≤ 31) → l.Nodup →
    ∃ p, reductionPattern l = some p ∧ ∀ i, i ≤ 31 → (p.getLsbD (31 - i) = true ↔ i ∈ l)) ∧
  (∀ l : List Nat, ((∃ e ∈ l, 31 < e) ∨ ¬ l.Nodup) → reductionPattern l = none) ∧
  Config.polyExponents.length = 14 ∧ reductionPattern Config.polyExponents = some 0xEDB88320#32

/-- R52, R56: the image lists 2048 entries, and the entry of table `k`, number `n` stands at place `256*k + n`. -/
def Obligations.RomImageIsTableMajor : Prop :=
  romImage.length = 2048 ∧
  ∀ (k : BitVec 3) (n : Byte), romImage[256 * k.toNat + n.toNat]? = some (rom k n)

/-! ### The datapath's laws -/

/-- R10, R12: byte `i` of `bswap32(v)` is byte `3 - i` of `v`, and the swap is an involution. -/
def Obligations.ByteSwapReversesBytes : Prop :=
  ∀ v : Word, (∀ i, i ≤ 3 → (bswap32 v).extractLsb' (8 * i) 8 = v.extractLsb' (8 * (3 - i)) 8) ∧
    bswap32 (bswap32 v) = v

/-- R72, R116: the two packings as the source's shifts write them, and the stream bytes of a packed word. -/
def Obligations.WordsPackStreamBytes : Prop :=
  ∀ b0 b1 b2 b3 : Byte,
    packLE b0 b1 b2 b3 = (b0.setWidth 32 ||| b1.setWidth 32 <<< 8 ||| b2.setWidth 32 <<< 16 |||
      b3.setWidth 32 <<< 24) ∧
    packBE b0 b1 b2 b3 = (b0.setWidth 32 <<< 24 ||| b1.setWidth 32 <<< 16 ||| b2.setWidth 32 <<< 8 |||
      b3.setWidth 32) ∧
    streamBytes (.wordle (packLE b0 b1 b2 b3)) = [b0, b1, b2, b3] ∧
    streamBytes (.wordbe (packBE b0 b1 b2 b3)) = [b0, b1, b2, b3]

/-- The spec's inference R117: for every ACC and four stream bytes, WORDLE of the little-endian word, WORDBE of the
big-endian word and the fold of the bytes are the same value. -/
def Obligations.WordStepsEqualFourByteSteps : Prop :=
  ∀ (s : State) (b0 b1 b2 b3 : Byte), s.resetSeen = true → s.wordPath = true →
    exec (.wordle (packLE b0 b1 b2 b3)) s = .next { s with acc := fold s.acc [b0, b1, b2, b3] } ∧
    exec (.wordbe (packBE b0 b1 b2 b3)) s = .next { s with acc := fold s.acc [b0, b1, b2, b3] }

/-- R111: for every ACC and every operand, presenting a word command leaves the state that presenting four BYTE
commands with its bytes in stream order leaves. -/
def Obligations.WordCommandRunsAsFourByteCommands : Prop :=
  ∀ (s : State) (i : Instr), s.resetSeen = true → s.wordPath = true → s.inputs = [] →
    ((∃ v, i = .wordle v) ∨ ∃ v, i = .wordbe v) →
    ∃ t, Host.Core.run core 1 (present s [i]) = .next t ∧
      Host.Core.run core 4 (present s ((streamBytes i).map .byte)) = .next t

/-- The spec's inference R115: an accumulator kept in big-endian form, stepped by `ROM(4, (s >> 24) ^ b) ^ (s <<
8)`, is the swapped form of ACC after any bytes, and after a WORDBE it is so for the word's four bytes. -/
def Obligations.SwappedAccumulatorIsEquivalent : Prop :=
  ∀ (c : Word) (bytes : List Byte),
    bytes.foldl swappedStep8 (bswap32 c) = bswap32 (fold c bytes) ∧
    ∀ (s : State) (v : Word), s.resetSeen = true → s.wordPath = true →
      exec (.wordbe v) s =
        .next { s with acc := bswap32 ((beBytes v).foldl swappedStep8 (bswap32 s.acc)) }

/-- The spec's inferences under R119: composition, linearity for sequences of equal length, and chaining. -/
def Obligations.FoldComposesIsLinearAndChains : Prop :=
  (∀ (a : Word) (S T : List Byte), fold a (S ++ T) = fold (fold a S) T) ∧
  (∀ (a a' : Word) (S S' : List Byte), S.length = S'.length →
    fold (a ^^^ a') (List.zipWith (· ^^^ ·) S S') = fold a S ^^^ fold a' S') ∧
  ∀ (p : Word) (S T : List Byte), crc32 (crc32 p S) T = crc32 p (S ++ T)

/-! ### Whole-machine rules -/

/-- The spec's inference R35: what ACC means at every cycle boundary. From any state after reset whose ACC is the
fold of a history, any run of edges ends in the fold of the history those edges make of it. -/
def Obligations.AccIsTheFoldOfTheAcceptedStream : Prop :=
  ∀ (es rest : List Edge) (s : State) (h : History),
    s.resetSeen = true → s.inputs = es ++ rest → s.acc = fold (h.seed ^^^ 0xFFFFFFFF#32) h.stream →
    ∃ t, Host.Core.run core es.length s = .next t ∧ t.inputs = rest ∧
      t.acc = fold ((historyEdges s.wordPath es h).seed ^^^ 0xFFFFFFFF#32) (historyEdges s.wordPath es h).stream ∧
      crcOut t = crc32 (historyEdges s.wordPath es h).seed (historyEdges s.wordPath es h).stream

/-- The spec's inference R74: any interleaving of BYTE, WORDLE and WORDBE commands gives the ACC of the fold of the
bytes they carry, and changes nothing else. -/
def Obligations.MixedWidthsFoldTheSameStream : Prop :=
  ∀ (s : State) (is : List Instr), s.resetSeen = true → s.wordPath = true → s.inputs = [] →
    (∀ i ∈ is, (∃ b, i = .byte b) ∨ (∃ v, i = .wordle v) ∨ ∃ v, i = .wordbe v) →
    Host.Core.run core is.length (present s is) =
      .next { s with acc := fold s.acc (is.flatMap streamBytes) }

/-- R187: the command order alone decides every value: leaving out the edges at which no command is presented and
reset is not asserted changes no register at the end of a run. -/
def Obligations.IdleEdgesChangeNoValue : Prop :=
  ∀ (es : List Edge) (s t : State), s.resetSeen = true →
    Host.Core.run core es.length { s with inputs := es } = .next t →
    ∃ u, Host.Core.run core (es.filter fun e => e.rst || e.cmdValid).length
        { s with inputs := es.filter fun e => e.rst || e.cmdValid } = .next u ∧
      t.SameRegisters u

/-- The invariant of every state after reset (R26, R180): a reset has been seen, and TBL_OUT holds an entry of the
ROM. Every step keeps it. -/
def Obligations.StepKeepsTheInvariant : Prop :=
  ∀ s t : State, s.Inv → step s = .next t → t.Inv

/-- The invariant holds in the state right after reset (R28, R50: `ROM(0, 0) = 0`). -/
def Obligations.ResetHasTheInvariant : Prop := State.reset.Inv

/-- R118, R140: after reset no command faults, for any operand, any ACC and any run of edges. -/
def Obligations.EngineNeverStopsAfterReset : Prop :=
  ∀ (s : State) (n : Nat), s.resetSeen = true → SafeFor n s

/-- R165: an edge of one engine of a platform changes that engine as its own step does and no other engine, and
edges of two engines give the same platform in either order. -/
def Obligations.EnginesDoNotDisturbEachOther : Prop :=
  (∀ (p q : Platform) (i : Nat), platformEdge p i = .next q →
    q.engines.length = p.engines.length ∧
    (∀ j, j ≠ i → q.engines[j]? = p.engines[j]?) ∧
    ∀ s, p.engines[i]? = some s → ∃ t, step s = .next t ∧ q.engines[i]? = some t) ∧
  ∀ (p q r : Platform) (i j : Nat), i ≠ j → platformEdge p i = .next q → platformEdge q j = .next r →
    ∃ q', platformEdge p j = .next q' ∧ platformEdge q' i = .next r

/-! ### The host's sequences and the assembler -/

/-- R135, with its result, which the spec infers: over any buffer, the byte-wise sequence issues `len + 1` commands,
and after their edges `crc_out` is `CRC32(p, data)`, whatever ACC held before. -/
def Obligations.BytewiseSequenceComputesTheCrc : Prop :=
  ∀ (s : State) (p : Word) (m : Buffer), s.resetSeen = true → s.inputs = [] →
    ∃ is t, bytewiseCommands p m = some is ∧ is.length = m.bytes.length + 1 ∧
      Host.Core.run core is.length (present s is) = .next t ∧ crcOut t = crc32 p m.bytes

/-- R136, with the counts and the result the spec infers under R137: over any buffer at any address and in either
byte order, the accelerated sequence issues `1 + lead + nwords + tail` commands, and its result is that of the
byte-wise sequence. -/
def Obligations.AcceleratedSequenceComputesTheSameCrc : Prop :=
  ∀ (s : State) (p : Word) (m : Buffer) (order : ByteOrder),
    s.resetSeen = true → s.wordPath = true → s.inputs = [] →
    ∃ is t bs u, acceleratedCommands p m order = some is ∧
      is.length = 1 + leadCount m.base m.bytes.length + wordCount m.base m.bytes.length +
        tailCount m.base m.bytes.length ∧
      Host.Core.run core is.length (present s is) = .next t ∧
      bytewiseCommands p m = some bs ∧ Host.Core.run core bs.length (present s bs) = .next u ∧
      crcOut t = crcOut u ∧ crcOut t = crc32 p m.bytes

/-- R136, and the counts the spec infers under R137: the accelerated sequence's WORD commands number `nwords` and
start at addresses on a 4-byte boundary, and its BYTE commands number `lead + tail`. -/
def Obligations.AcceleratedSequenceCountsAndAlignment : Prop :=
  ∀ (p : Word) (base len : Nat) (order : ByteOrder),
    (acceleratedPlan p base len order).countP isWordIssue = wordCount base len ∧
    (acceleratedPlan p base len order).countP isByteIssue = leadCount base len + tailCount base len ∧
    ∀ o a, .issueWord o a ∈ acceleratedPlan p base len order → a % 4 = 0 ∧ o = order

/-- R139, which the spec infers from the counts: both sequences read every byte of `[BASE, BASE + len)` exactly
once, in increasing address order, and no byte outside it. -/
def Obligations.SequencesReadTheBufferOnceInOrder : Prop :=
  ∀ (p : Word) (base len : Nat) (order : ByteOrder),
    (bytewisePlan p base len).flatMap readAddresses = List.range' base len ∧
    (acceleratedPlan p base len order).flatMap readAddresses = List.range' base len

/-- 93_implementation_defined.md I3: whatever values the reads of a sequence return, the engine computes the CRC of
the bytes it was given. -/
def Obligations.SequenceComputesTheCrcOfTheBytesRead : Prop :=
  ∀ (s : State) (p : Word) (base : Nat) (order : ByteOrder) (values : List Byte) (plan : List HostOp),
    s.resetSeen = true → s.wordPath = true → s.inputs = [] →
    (plan = bytewisePlan p base values.length ∨ plan = acceleratedPlan p base values.length order) →
    ∃ is t, issue plan values = some is ∧ Host.Core.run core is.length (present s is) = .next t ∧
      crcOut t = crc32 p values ∧ t.tblOut = s.tblOut ∧ t.err = s.err

/-- R138: a second sequence seeded with the first one's result gives the CRC of the two buffers' concatenation,
whichever sequence each call uses. -/
def Obligations.ChainedSequencesComputeTheWholeCrc : Prop :=
  ∀ (s : State) (p : Word) (A B : Buffer) (order order' : ByteOrder) (iA iB : List Instr),
    s.resetSeen = true → s.wordPath = true → s.inputs = [] →
    (bytewiseCommands p A = some iA ∨ acceleratedCommands p A order = some iA) →
    (bytewiseCommands (crc32 p A.bytes) B = some iB ∨
      acceleratedCommands (crc32 p A.bytes) B order' = some iB) →
    ∃ t u, Host.Core.run core iA.length (present s iA) = .next t ∧ crcOut t = crc32 p A.bytes ∧
      Host.Core.run core iB.length (present t iB) = .next u ∧ crcOut u = crc32 p (A.bytes ++ B.bytes)

/-- R130, R131, R60: after the `j`-th TREAD of the self-test `tbl_out` shows the image's entry `j`, and the checksum
in progress is undisturbed. -/
def Obligations.SelfTestReadsTheRomImage : Prop :=
  ∀ (s : State) (j : Nat), s.inputs = [] → j < 2048 →
    ∃ t, Host.Core.run core (j + 1) (present s selfTestCommands) = .next t ∧
      romImage[j]? = some (tblOutPort t) ∧ t.acc = s.acc ∧ t.err = s.err

/-- R91: the assembler refuses an operand out of range and otherwise encodes the mnemonic's opcode and its operand,
with `TREAD k, n` as `arg = (k << 8) | n`. -/
def Obligations.AssemblerEncodesOperandsInRange : Prop :=
  ∀ v k n : Nat,
    assembleLine .nop = some [.nop] ∧ encode .nop = 0x00_00000000#40 ∧
    (assembleLine (.init v) = if v < 2 ^ 32 then some [.init (BitVec.ofNat 32 v)] else none) ∧
    (assembleLine (.byte v) = if v < 2 ^ 8 then some [.byte (BitVec.ofNat 8 v)] else none) ∧
    (assembleLine (.wordle v) = if v < 2 ^ 32 then some [.wordle (BitVec.ofNat 32 v)] else none) ∧
    (assembleLine (.wordbe v) = if v < 2 ^ 32 then some [.wordbe (BitVec.ofNat 32 v)] else none) ∧
    (assembleLine (.tread k n) =
      if k < 8 ∧ n < 256 then some [.tread (BitVec.ofNat 3 k) (BitVec.ofNat 8 n)] else none) ∧
    (k < 8 → n < 256 →
      (encode (.tread (BitVec.ofNat 3 k) (BitVec.ofNat 8 n))).toNat = 0x30 * 2 ^ 32 + k * 256 + n)

/-- R92: each pseudo-instruction with operands in range is its expansion; `CRC32` is the byte-wise sequence and
`CRC32W` the accelerated sequence of those bytes at that address, which always exists. That
a list of no bytes has an expansion, of no command for `BYTES` and `STR` and of the sequence of an empty buffer for
`CRC32` and `CRC32W`, is the model's choice (log entry 9): R92 gives `BYTES` at least `b0`, and the text `BYTES` with
no operand is refused. -/
def Obligations.PseudoInstructionsAreTheirExpansions : Prop :=
  ∀ (p base : Nat) (bs : List Nat) (order : ByteOrder), p < 2 ^ 32 → (∀ b ∈ bs, b < 256) →
    assembleLine (.bytes bs) = some (bs.map fun b => .byte (BitVec.ofNat 8 b)) ∧
    ((∀ b ∈ bs, b < 128) → assembleLine (.str bs) = assembleLine (.bytes bs)) ∧
    assembleLine (.resume p) = assembleLine (.init p) ∧
    assembleLine (.crc32 p bs) =
      bytewiseCommands (BitVec.ofNat 32 p) { base := base, bytes := bs.map (BitVec.ofNat 8) } ∧
    ∃ is, assembleLine (.crc32w p bs base order) = some is ∧
      acceleratedCommands (BitVec.ofNat 32 p) { base := base, bytes := bs.map (BitVec.ofNat 8) } order = some is
end

