-- ==== Sys2Proof/Laws/Datapath.lean ====
section
/-! SUPPORT. The small lemmas of the byte, fold and complement functions. -/

namespace Sys2Proof.Machine

@[simp] theorem complement_complement (v : Word) : complement (complement v) = v := by
  simp [complement]

@[simp] theorem fold_nil (c : Word) : fold c [] = c := rfl

@[simp] theorem fold_cons (c : Word) (b : Byte) (bs : List Byte) : fold c (b :: bs) = fold (step8 c b) bs := rfl

@[simp] theorem crc32_nil (p : Word) : crc32 p [] = p := by simp [crc32]

@[simp] theorem zext32_zero : zext32 0#8 = 0#32 := rfl

theorem zext32_xor (a b : Byte) : zext32 (a ^^^ b) = zext32 a ^^^ zext32 b := by
  simp [zext32, BitVec.setWidth_xor]

theorem byteOf_xor (i : Nat) (a b : Word) : byteOf i (a ^^^ b) = byteOf i a ^^^ byteOf i b := by
  simp [byteOf, BitVec.extractLsb'_xor]

/-- Bit `i` of a byte of a word (R10). -/
theorem getLsbD_byteOf (j i : Nat) (v : Word) :
    (byteOf j v).getLsbD i = (decide (i < 8) && v.getLsbD (8 * j + i)) :=
  BitVec.getLsbD_extractLsb' _ _ _ _

/-- Bit `i` of a zero-extended byte (R11). -/
theorem getLsbD_zext32 (b : Byte) (i : Nat) :
    (zext32 b).getLsbD i = (decide (i < 32) && b.getLsbD i) :=
  BitVec.getLsbD_setWidth _ _ _

/-- Bit `i` of a concatenation of four bytes (R11). -/
theorem getLsbD_concatBytes (b3 b2 b1 b0 : Byte) (i : Nat) :
    (concatBytes b3 b2 b1 b0).getLsbD i =
      if i < 8 then b0.getLsbD i else if i < 16 then b1.getLsbD (i - 8)
      else if i < 24 then b2.getLsbD (i - 16) else b3.getLsbD (i - 24) := by
  have h := @BitVec.getLsbD_append 24 8 i (b3 ++ b2 ++ b1) b0
  have h1 := @BitVec.getLsbD_append 16 8 (i - 8) (b3 ++ b2) b1
  have h2 := @BitVec.getLsbD_append 8 8 (i - 8 - 8) b3 b2
  rw [h1, h2] at h
  refine h.trans ?_
  repeat' split
  all_goals first | rfl | omega

/-- The bytes of a concatenation (R10, R11). -/
theorem byteOf_concatBytes (b3 b2 b1 b0 : Byte) :
    byteOf 0 (concatBytes b3 b2 b1 b0) = b0 ∧ byteOf 1 (concatBytes b3 b2 b1 b0) = b1 ∧
      byteOf 2 (concatBytes b3 b2 b1 b0) = b2 ∧ byteOf 3 (concatBytes b3 b2 b1 b0) = b3 := by
  refine ⟨?_, ?_, ?_, ?_⟩ <;> refine BitVec.eq_of_getLsbD_eq fun j hj => ?_ <;>
    rw [getLsbD_byteOf, getLsbD_concatBytes] <;> (repeat' split) <;>
    first | (exfalso; omega) | simp [hj]

/-- Bit `i` of a byte-swapped word (R12). -/
theorem getLsbD_bswap32 (v : Word) (i : Nat) :
    (bswap32 v).getLsbD i =
      if i < 8 then v.getLsbD (24 + i) else if i < 16 then v.getLsbD (i + 8)
      else if i < 24 then v.getLsbD (i - 8) else if i < 32 then v.getLsbD (i - 24) else false := by
  rw [bswap32, getLsbD_concatBytes]
  simp only [getLsbD_byteOf]
  repeat' split
  · simp [*]
  · have : i - 8 < 8 := by omega
    simp [this]
    congr 1
    omega
  · have : i - 16 < 8 := by omega
    simp [this]
    congr 1
    omega
  · have : i - 24 < 8 := by omega
    simp [this]
  · have : ¬ i - 24 < 8 := by omega
    simp [this]

/-- The byte swap distributes over XOR. -/
theorem bswap32_xor (a b : Word) : bswap32 (a ^^^ b) = bswap32 a ^^^ bswap32 b := by
  refine BitVec.eq_of_getLsbD_eq fun i _ => ?_
  simp only [BitVec.getLsbD_xor, getLsbD_bswap32]
  repeat' split
  all_goals rfl

/-- Bit `i` of a ROM address (R56). -/
theorem getLsbD_romAddress (k : BitVec 3) (n : Byte) (i : Nat) :
    (romAddress k n).getLsbD i = if i < 8 then n.getLsbD i else k.getLsbD (i - 8) :=
  @BitVec.getLsbD_append 3 8 i k n

theorem byteOf_zext32 (b : Byte) : byteOf 0 (zext32 b) = b := by
  refine BitVec.eq_of_getLsbD_eq fun i hi => ?_
  have hi' : i < 32 := by omega
  rw [getLsbD_byteOf, getLsbD_zext32]
  simp [hi, hi']

/-- STEP8 in the form of rule R110: the index is `ACC[7:0] ^ b`. -/
theorem step8_eq (c : Word) (b : Byte) : step8 c b = rom 0 (byteOf 0 c ^^^ b) ^^^ (c >>> 8) := by
  simp [step8, step8Of, byteOf_xor, byteOf_zext32]

theorem romAt_romAddress (k : BitVec 3) (n : Byte) : romAt (romAddress k n) = rom k n := by
  have hk : (romAddress k n).extractLsb' 8 3 = k := by
    refine BitVec.eq_of_getLsbD_eq fun i hi => ?_
    rw [BitVec.getLsbD_extractLsb', getLsbD_romAddress]
    simp [hi]
  have hn : (romAddress k n).extractLsb' 0 8 = n := by
    refine BitVec.eq_of_getLsbD_eq fun i hi => ?_
    rw [BitVec.getLsbD_extractLsb', getLsbD_romAddress]
    simp [hi]
  simp [romAt, hk, hn]

end Sys2Proof.Machine
end

