-- ==== Sys2Proof/Laws/Decode.lean ====
section
/-! SUPPORT. The two fields of a command word. -/

namespace Sys2Proof

/-- Bit `i` of a command word (R80). -/
theorem getLsbD_commandWord (op : Byte) (arg : Word) (i : Nat) :
    (commandWord op arg).getLsbD i = if i < 32 then arg.getLsbD i else op.getLsbD (i - 32) :=
  @BitVec.getLsbD_append 8 32 i op arg

/-- Bit `i` of the opcode field (R80). -/
theorem getLsbD_opcodeOf (w : CommandWord) (i : Nat) :
    (opcodeOf w).getLsbD i = (decide (i < 8) && w.getLsbD (32 + i)) :=
  BitVec.getLsbD_extractLsb' _ _ _ _

/-- Bit `i` of the operand field (R80). -/
theorem getLsbD_argOf (w : CommandWord) (i : Nat) :
    (argOf w).getLsbD i = (decide (i < 32) && w.getLsbD (0 + i)) :=
  BitVec.getLsbD_extractLsb' _ _ _ _

@[simp] theorem opcodeOf_commandWord (op : Byte) (arg : Word) : opcodeOf (commandWord op arg) = op := by
  refine BitVec.eq_of_getLsbD_eq fun i hi => ?_
  rw [getLsbD_opcodeOf, getLsbD_commandWord]
  simp [hi]

@[simp] theorem argOf_commandWord (op : Byte) (arg : Word) : argOf (commandWord op arg) = arg := by
  refine BitVec.eq_of_getLsbD_eq fun i hi => ?_
  rw [getLsbD_argOf, getLsbD_commandWord]
  simp [hi]

/-- A command word is its two fields (R80). -/
@[simp] theorem commandWord_fields (w : CommandWord) : commandWord (opcodeOf w) (argOf w) = w := by
  refine BitVec.eq_of_getLsbD_eq fun i hi => ?_
  rw [getLsbD_commandWord, getLsbD_opcodeOf, getLsbD_argOf]
  split
  · next h => simp [h]
  · next h =>
    have h8 : i - 32 < 8 := by omega
    have hs : 32 + (i - 32) = i := by omega
    simp [h8, hs]

/-- A row's word, numbered as the opcode table numbers it, is the command word itself. -/
@[simp] theorem tableWord_toNat (w : CommandWord) : tableWord 40 w.toNat = w := by
  apply BitVec.eq_of_toNat_eq
  unfold tableWord
  rw [BitVec.toNat_ofNat, Nat.mod_mod, Nat.mod_eq_of_lt w.isLt]

/-- The operand of format T as the encoder writes it (R83). -/
theorem getLsbD_treadArg (k : BitVec 3) (n : Byte) (i : Nat) :
    (Instr.tread k n).arg.getLsbD i =
      if i < 8 then n.getLsbD i else if i < 11 then k.getLsbD (i - 8) else false := by
  have h := @BitVec.getLsbD_append 24 8 i (0#21 ++ k) n
  have h1 := @BitVec.getLsbD_append 21 3 (i - 8) 0#21 k
  rw [h1] at h
  refine h.trans ?_
  repeat' split
  all_goals first | rfl | omega | simp

/-- The operand of format B as the encoder writes it (R83). -/
theorem getLsbD_byteArg (b : Byte) (i : Nat) :
    (Instr.byte b).arg.getLsbD i = if i < 8 then b.getLsbD i else false := by
  refine (@BitVec.getLsbD_append 24 8 i 0#24 b).trans ?_
  split <;> simp

end Sys2Proof
end

