-- ==== Sys2Proof/Laws/State.lean ====
section
/-! SUPPORT. One lemma for each field of State under each update of it. -/

namespace Sys2Proof.Machine

@[simp] theorem setAcc_acc (s : State) (v : Word) : (setAcc s v).acc = v := rfl
@[simp] theorem setAcc_tblOut (s : State) (v : Word) : (setAcc s v).tblOut = s.tblOut := rfl
@[simp] theorem setAcc_err (s : State) (v : Word) : (setAcc s v).err = s.err := rfl
@[simp] theorem setAcc_resetSeen (s : State) (v : Word) : (setAcc s v).resetSeen = s.resetSeen := rfl
@[simp] theorem setAcc_wordPath (s : State) (v : Word) : (setAcc s v).wordPath = s.wordPath := rfl
@[simp] theorem setAcc_inputs (s : State) (v : Word) : (setAcc s v).inputs = s.inputs := rfl

@[simp] theorem setTblOut_acc (s : State) (v : Word) : (setTblOut s v).acc = s.acc := rfl
@[simp] theorem setTblOut_tblOut (s : State) (v : Word) : (setTblOut s v).tblOut = v := rfl
@[simp] theorem setTblOut_err (s : State) (v : Word) : (setTblOut s v).err = s.err := rfl
@[simp] theorem setTblOut_resetSeen (s : State) (v : Word) : (setTblOut s v).resetSeen = s.resetSeen := rfl
@[simp] theorem setTblOut_wordPath (s : State) (v : Word) : (setTblOut s v).wordPath = s.wordPath := rfl
@[simp] theorem setTblOut_inputs (s : State) (v : Word) : (setTblOut s v).inputs = s.inputs := rfl

@[simp] theorem raiseErr_acc (s : State) : (raiseErr s).acc = s.acc := rfl
@[simp] theorem raiseErr_tblOut (s : State) : (raiseErr s).tblOut = s.tblOut := rfl
@[simp] theorem raiseErr_err (s : State) : (raiseErr s).err = 1#1 := rfl
@[simp] theorem raiseErr_resetSeen (s : State) : (raiseErr s).resetSeen = s.resetSeen := rfl
@[simp] theorem raiseErr_wordPath (s : State) : (raiseErr s).wordPath = s.wordPath := rfl
@[simp] theorem raiseErr_inputs (s : State) : (raiseErr s).inputs = s.inputs := rfl

@[simp] theorem resetRegisters_acc (s : State) : (resetRegisters s).acc = 0xFFFFFFFF#32 := rfl
@[simp] theorem resetRegisters_tblOut (s : State) : (resetRegisters s).tblOut = 0x00000000#32 := rfl
@[simp] theorem resetRegisters_err (s : State) : (resetRegisters s).err = 0#1 := rfl
@[simp] theorem resetRegisters_resetSeen (s : State) : (resetRegisters s).resetSeen = true := rfl
@[simp] theorem resetRegisters_wordPath (s : State) : (resetRegisters s).wordPath = s.wordPath := rfl
@[simp] theorem resetRegisters_inputs (s : State) : (resetRegisters s).inputs = s.inputs := rfl

@[simp] theorem dropEdge_acc (s : State) : (dropEdge s).acc = s.acc := rfl
@[simp] theorem dropEdge_tblOut (s : State) : (dropEdge s).tblOut = s.tblOut := rfl
@[simp] theorem dropEdge_err (s : State) : (dropEdge s).err = s.err := rfl
@[simp] theorem dropEdge_resetSeen (s : State) : (dropEdge s).resetSeen = s.resetSeen := rfl
@[simp] theorem dropEdge_wordPath (s : State) : (dropEdge s).wordPath = s.wordPath := rfl
@[simp] theorem dropEdge_inputs (s : State) : (dropEdge s).inputs = s.inputs.tail := rfl

@[simp] theorem present_acc (s : State) (is : List Instr) : (present s is).acc = s.acc := rfl
@[simp] theorem present_tblOut (s : State) (is : List Instr) : (present s is).tblOut = s.tblOut := rfl
@[simp] theorem present_err (s : State) (is : List Instr) : (present s is).err = s.err := rfl
@[simp] theorem present_resetSeen (s : State) (is : List Instr) : (present s is).resetSeen = s.resetSeen := rfl
@[simp] theorem present_wordPath (s : State) (is : List Instr) : (present s is).wordPath = s.wordPath := rfl
@[simp] theorem present_inputs (s : State) (is : List Instr) : (present s is).inputs = s.inputs ++ is.map edgeOf := rfl

@[simp] theorem reset_acc : State.reset.acc = 0xFFFFFFFF#32 := rfl
@[simp] theorem reset_tblOut : State.reset.tblOut = 0x00000000#32 := rfl
@[simp] theorem reset_err : State.reset.err = 0#1 := rfl
@[simp] theorem reset_resetSeen : State.reset.resetSeen = true := rfl
@[simp] theorem reset_wordPath : State.reset.wordPath = Config.wordPath := rfl
@[simp] theorem reset_inputs : State.reset.inputs = [] := rfl

end Sys2Proof.Machine
end

