-- ==== Sys2Proof/Laws/Ops.lean ====
section
/-! SUPPORT. What the shared operations and the meanings can do, said once: an equation for each where it
completes, and one inversion lemma for an answer. -/

namespace Sys2Proof.Machine

theorem readAcc_of_reset {s : State} (h : s.resetSeen = true) (use : Word → Result) :
    readAcc s use = use s.acc := by
  simp [readAcc, h]

theorem readAcc_of_no_reset {s : State} (h : s.resetSeen = false) (use : Word → Result) :
    readAcc s use = .fault (.readBeforeReset .acc) := by
  simp [readAcc, h]

theorem sample_of_reset {s : State} (h : s.resetSeen = true) (p : OutPort) :
    sample s p = .ok (portValue s p) := by
  simp [sample, h]

theorem nextEdge_cons {s : State} {e : Edge} {es : List Edge} (h : s.inputs = e :: es) : nextEdge s = e := by
  simp [nextEdge, h]

theorem dropEdge_cons {s : State} {e : Edge} {es : List Edge} (h : s.inputs = e :: es) :
    dropEdge s = { s with inputs := es } := by
  simp [dropEdge, h]

theorem nextEdge_nil {s : State} (h : s.inputs = []) : nextEdge s = idleEdge := by
  simp [nextEdge, h]

theorem dropEdge_nil {s : State} (h : s.inputs = []) : dropEdge s = s := by
  cases s
  simp_all [dropEdge]

/-- What a command can do when it answers a next state: nothing, one register written, or ERR set because the
instance has no such command. -/
theorem exec_next_cases {i : Instr} {s t : State} (h : exec i s = .next t) :
    (i = .nop ∧ t = s) ∨
    (∃ v, i = .init v ∧ t = setAcc s (complement v)) ∨
    (∃ b, i = .byte b ∧ s.resetSeen = true ∧ t = setAcc s (step8 s.acc b)) ∨
    (∃ v, i = .wordle v ∧ s.resetSeen = true ∧ s.wordPath = true ∧ t = setAcc s (wordStepLE s.acc v)) ∨
    (∃ v, i = .wordbe v ∧ s.resetSeen = true ∧ s.wordPath = true ∧ t = setAcc s (wordStepBE s.acc v)) ∨
    (∃ k n, i = .tread k n ∧ t = setTblOut s (romAt (romAddress k n))) ∨
    (i.wellFormed s.wordPath = false ∧ t = raiseErr s) := by
  cases i with
  | nop => simp_all [exec, execNop]
  | init v => simp_all [exec, execInit]
  | byte b => cases hr : s.resetSeen <;> simp_all [exec, execByte, readAcc]
  | wordle v =>
    cases hr : s.resetSeen <;> cases hw : s.wordPath <;>
      simp_all [exec, execWordle, readAcc, Instr.wellFormed]
  | wordbe v =>
    cases hr : s.resetSeen <;> cases hw : s.wordPath <;>
      simp_all [exec, execWordbe, readAcc, Instr.wellFormed]
  | tread k n => simp_all [exec, execTread]

/-- After a reset every command completes. -/
theorem exec_completes {s : State} (h : s.resetSeen = true) (i : Instr) : ∃ t, exec i s = .next t := by
  cases i with
  | nop => exact ⟨_, rfl⟩
  | init v => exact ⟨_, rfl⟩
  | byte b => exact ⟨_, by rw [exec, execByte, readAcc_of_reset h]⟩
  | wordle v => cases hw : s.wordPath <;> simp [exec, execWordle, hw, readAcc_of_reset h]
  | wordbe v => cases hw : s.wordPath <;> simp [exec, execWordbe, hw, readAcc_of_reset h]
  | tread k n => exact ⟨_, rfl⟩

/-- A command that does not complete is a data command before the first reset. -/
theorem exec_stops_only_before_reset {i : Instr} {s : State} (h : ∀ t, exec i s ≠ .next t) :
    s.resetSeen = false ∧ exec i s = .fault (.readBeforeReset .acc) := by
  cases hr : s.resetSeen with
  | true => exact absurd (exec_completes hr i).choose_spec (h _)
  | false =>
    refine ⟨rfl, ?_⟩
    cases i with
    | nop => exact absurd rfl (h s)
    | init v => exact absurd rfl (h (setAcc s (complement v)))
    | byte b => rw [exec, execByte, readAcc_of_no_reset hr]
    | wordle v =>
      cases hw : s.wordPath with
      | true => simp [exec, execWordle, hw, readAcc_of_no_reset hr]
      | false => exact absurd (by simp [exec, execWordle, hw]) (h (raiseErr s))
    | wordbe v =>
      cases hw : s.wordPath with
      | true => simp [exec, execWordbe, hw, readAcc_of_no_reset hr]
      | false => exact absurd (by simp [exec, execWordbe, hw]) (h (raiseErr s))
    | tread k n => exact absurd rfl (h (setTblOut s (romAt (romAddress k n))))

end Sys2Proof.Machine
end

