-- ==== Sys2Proof/Laws/Step.lean ====
section
/-! SUPPORT. What one rising edge can do, said once, and how a run unrolls. -/

namespace Sys2Proof.Machine

theorem step_cons {s : State} {e : Edge} {es : List Edge} (h : s.inputs = e :: es) :
    step s = clockEdge e { s with inputs := es } := by
  simp [step, nextEdge_cons h, dropEdge_cons h]

/-- An edge is a reset edge, an idle edge, an accepted command or an accepted reserved opcode. -/
theorem clockEdge_cases (e : Edge) (s : State) :
    (e.rst = true ∧ clockEdge e s = .next (resetRegisters s)) ∨
    (e.rst = false ∧ e.cmdValid = false ∧ clockEdge e s = .next s) ∨
    (e.rst = false ∧ e.cmdValid = true ∧
      ∃ i, decode s.wordPath (portWord e) = .command i ∧ clockEdge e s = exec i s) ∨
    (e.rst = false ∧ e.cmdValid = true ∧
      ∃ op, decode s.wordPath (portWord e) = .reserved op ∧ clockEdge e s = .next (raiseErr s)) := by
  cases hr : e.rst <;> cases hv : e.cmdValid <;> simp [clockEdge, hr, hv, accepts]
  cases hd : decode s.wordPath (portWord e) <;> simp [acceptWord, hd]

@[simp] theorem run_zero (s : State) : Host.Core.run core 0 s = .next s := rfl

theorem run_succ_of_next {s t : State} (n : Nat) (h : step s = .next t) :
    Host.Core.run core (n + 1) s = Host.Core.run core n t := by
  have h' : core.step s = .next t := h
  simp only [Host.Core.run, h']

@[simp] theorem portWord_edgeOfWord (w : CommandWord) : portWord (edgeOfWord w) = w :=
  commandWord_fields w

end Sys2Proof.Machine
end

