-- ==== Sys2Proof/Laws/PerInstr.lean ====
section
/-! SUPPORT. Facts about every command as syntax, one lemma for each constructor of `Instr`. -/

namespace Sys2Proof.Laws.EncodeFields

/-- The command word holds the command's opcode and operand, and 0 in every ignored bit (R80, R84, R91). -/
def Statement (i : Instr) : Prop :=
  opcodeOf (encode i) = i.opcode ∧ argOf (encode i) = i.arg ∧ i.arg &&& usedArgBits i.opcode = i.arg

theorem fields_of_arg {i : Instr} (h : i.arg &&& usedArgBits i.opcode = i.arg) : Statement i :=
  ⟨opcodeOf_commandWord _ _, argOf_commandWord _ _, h⟩

theorem and_allOnes (v : Word) : v &&& 0xFFFFFFFF#32 = v := BitVec.and_allOnes

theorem nop : Statement .nop := fields_of_arg (by decide)

theorem init (v : Word) : Statement (.init v) := fields_of_arg (and_allOnes v)

theorem byte (b : Byte) : Statement (.byte b) := fields_of_arg (by
  change 0#24 ++ b &&& 0x000000FF#32 = 0#24 ++ b
  revert b
  decide)

theorem wordle (v : Word) : Statement (.wordle v) := fields_of_arg (and_allOnes v)

theorem wordbe (v : Word) : Statement (.wordbe v) := fields_of_arg (and_allOnes v)

theorem tread (k : BitVec 3) (n : Byte) : Statement (.tread k n) := fields_of_arg (by
  change 0#21 ++ k ++ n &&& 0x000007FF#32 = 0#21 ++ k ++ n
  revert k n
  decide)

end Sys2Proof.Laws.EncodeFields
end

