-- ==== Sys2Proof/Laws/Sequences.lean ====
section
/-! SUPPORT. What the parts of a host sequence read, and what reading a buffer gives. -/

namespace Sys2Proof.Machine

theorem issueBytes_reads (a n : Nat) : (issueBytes a n).flatMap readAddresses = List.range' a n := by
  simp only [issueBytes, List.flatMap_map, readAddresses]
  rw [List.range'_eq_map_range]
  induction n with
  | zero => rfl
  | succ n ih => simp_all [List.range_succ]

theorem issueWords_reads (order : ByteOrder) (a n : Nat) :
    (issueWords order a n).flatMap readAddresses = List.range' a (4 * n) := by
  simp only [issueWords, List.flatMap_map, readAddresses]
  induction n with
  | zero => rfl
  | succ n ih =>
    rw [List.range_succ, List.flatMap_append, ih, Nat.mul_succ, ← List.range'_append_1]
    congr 1

theorem issueChunks_reads (order : ByteOrder) (a n : Nat) :
    (issueChunks order a n).flatMap readAddresses = List.range' a (32 * n) := by
  simp only [issueChunks]
  induction n with
  | zero => rfl
  | succ n ih =>
    rw [List.range_succ, List.flatMap_append, List.flatMap_append, ih, Nat.mul_succ, ← List.range'_append_1]
    simp [issueWords_reads]

theorem leadCount_le (base len : Nat) : leadCount base len ≤ len := by
  unfold leadCount
  omega

/-- Reading a buffer from its byte `k` to its end gives its bytes from `k` on. -/
theorem memReads_from (m : Buffer) (n k : Nat) (h : k + n = m.bytes.length) :
    memReads m (List.range' (m.base + k) n) = some (m.bytes.drop k) := by
  induction n generalizing k with
  | zero =>
    simp at h
    subst h
    simp [memReads]
  | succ n ih =>
    have hk : k < m.bytes.length := by omega
    have hr : memRead m (m.base + k) = some m.bytes[k] := by simp [memRead, hk]
    rw [List.range'_succ, memReads, Nat.add_assoc, ih (k + 1) (by omega), hr]
    simp

/-- Reading a buffer's own addresses in order gives its bytes. -/
theorem memReads_all (m : Buffer) : memReads m (List.range' m.base m.bytes.length) = some m.bytes := by
  have h := memReads_from m m.bytes.length 0 (by omega)
  simpa using h

end Sys2Proof.Machine
end

