-- ==== Sys2Proof/Tests/Slice0.lean ====
section
/-! SUPPORT. The model's own tests. Every expected value is from 95_test_vectors.md or written out from the encoding
tables of 30_encoding.md. The witnesses at the end meet the hypotheses of the statements. -/

open Sys2Proof Sys2Proof.Machine

namespace Sys2Proof.Tests

/-- The state a command or an edge leaves, if it leaves one. -/
def after : Result → Option State
  | .next s => some s
  | .fault _ => none
  | .refused _ => none

/-- The reset state with another ACC. -/
def withAcc (v : Word) : State := setAcc State.reset v

/-- The reset state of an instance with `WORD_PATH = 0`. -/
def noWordPath : State := { State.reset with wordPath := false }

/-- A state before the first reset, with some value in each register. -/
def unreset (es : List Edge) : State := State.powerOn 0x12345678#32 0x9ABCDEF0#32 1#1 es

/-- An edge that presents the word `OO_AAAAAAAA` (R80). -/
def cmd (op : Byte) (arg : Word) : Edge := { rst := false, cmdValid := true, cmdOp := op, cmdArg := arg }

/-! ### Well-formedness: what each check refuses (R86, R91) -/

theorem test_wordle_needs_word_path : (Instr.wordle 0x34333231#32).wellFormed false = false := by decide
theorem test_wordbe_needs_word_path : (Instr.wordbe 0x31323334#32).wellFormed false = false := by decide
theorem test_all_present_with_word_path : (Instr.wordbe 0#32).wellFormed true = true := by decide
theorem test_imm32_out_of_range : (AsmLine.init 0x100000000).wellFormed = false := by decide
theorem test_wordle_out_of_range : (AsmLine.wordle 0x100000000).wellFormed = false := by decide
theorem test_wordbe_out_of_range : (AsmLine.wordbe 0x100000000).wellFormed = false := by decide
theorem test_imm8_out_of_range : (AsmLine.byte 0x100).wellFormed = false := by decide
theorem test_tread_table_out_of_range : (AsmLine.tread 8 0).wellFormed = false := by decide
theorem test_tread_entry_out_of_range : (AsmLine.tread 0 256).wellFormed = false := by decide
theorem test_bytes_out_of_range : (AsmLine.bytes [0, 256]).wellFormed = false := by decide
theorem test_str_not_ascii : (AsmLine.str [128]).wellFormed = false := by decide
theorem test_resume_out_of_range : (AsmLine.resume 0x100000000).wellFormed = false := by decide
theorem test_crc32_byte_out_of_range : (AsmLine.crc32 0 [256]).wellFormed = false := by decide
theorem test_crc32_seed_out_of_range : (AsmLine.crc32 0x100000000 []).wellFormed = false := by decide
theorem test_crc32w_byte_out_of_range : (AsmLine.crc32w 0 [256] 0 .le).wellFormed = false := by decide
theorem test_crc32w_seed_out_of_range : (AsmLine.crc32w 0x100000000 [] 0 .be).wellFormed = false := by decide

/-! ### Decoding: words written out bit by bit from R80, R83 and R85 -/

theorem test_decode_nop :
    decode true 0b00000000_11111111_11111111_11111111_11111111#40 = .command .nop := by decide
theorem test_decode_init :
    decode true 0b00000001_11001011_11110100_00111001_00100110#40 = .command (.init 0xCBF43926#32) := by decide
theorem test_decode_byte :
    decode true 0b00010000_11111111_11111111_11111111_00110001#40 = .command (.byte 0x31#8) := by decide
theorem test_decode_wordle :
    decode true 0b00100000_00110100_00110011_00110010_00110001#40 = .command (.wordle 0x34333231#32) := by decide
theorem test_decode_wordbe :
    decode true 0b00100001_00110001_00110010_00110011_00110100#40 = .command (.wordbe 0x31323334#32) := by decide
theorem test_decode_tread :
    decode true 0b00110000_11111111_11111111_11111011_00000001#40 = .command (.tread 3#3 1#8) := by decide
theorem test_decode_reserved_02 : decode true 0x02_12345678#40 = .reserved 0x02#8 := by decide
theorem test_decode_reserved_31 : decode true 0x31_00000000#40 = .reserved 0x31#8 := by decide
theorem test_decode_wordle_without_word_path :
    decode false 0x20_34333231#40 = .reserved 0x20#8 := by decide
theorem test_encode_tread : encode (.tread 0#3 128#8) = 0x30_00000080#40 := by decide
theorem test_table_word : decodeTableWord 40 0x1000000031 = some (.byte 0x31#8) := by decide

/-! ### The commands (95_test_vectors.md sections 2.1 to 2.8) -/

theorem test_nop : after (exec .nop (withAcc 0x12345678#32)) = some (withAcc 0x12345678#32) := by decide
theorem test_init :
    after (exec (.init 0xCBF43926#32) State.reset) = some (withAcc 0x340BC6D9#32) := by decide
theorem test_init_keeps_err :
    after (exec (.init 0#32) (raiseErr (withAcc 0#32))) = some (raiseErr (withAcc 0xFFFFFFFF#32)) := by decide
theorem test_byte : after (exec (.byte 0x9A#8) (withAcc 0x12345678#32)) = some (withAcc 0x4E16B702#32) := by decide
theorem test_byte_shift_fills_zero :
    after (exec (.byte 0xFF#8) (withAcc 0xFFFFFFFF#32)) = some (withAcc 0x00FFFFFF#32) := by decide
theorem test_wordle :
    after (exec (.wordle 0x34333231#32) State.reset) = some (withAcc 0x641C1F5C#32) := by decide +kernel
theorem test_wordle_first_byte_is_low :
    after (exec (.wordle 0x00000001#32) (withAcc 0#32)) = some (withAcc 0xB8BC6765#32) := by decide +kernel
theorem test_wordbe :
    after (exec (.wordbe 0x31323334#32) State.reset) = some (withAcc 0x641C1F5C#32) := by decide +kernel
theorem test_wordbe_first_byte_is_high :
    after (exec (.wordbe 0x01000000#32) (withAcc 0#32)) = some (withAcc 0xB8BC6765#32) := by decide +kernel
theorem test_tread :
    after (exec (.tread 3#3 1#8) State.reset) = some (setTblOut State.reset 0xB8BC6765#32) := by decide +kernel
theorem test_tread_last_entry :
    after (exec (.tread 7#3 255#8) State.reset) = some (setTblOut State.reset 0xF10605DE#32) := by decide +kernel
theorem test_reserved_sets_err :
    after (step { withAcc 0x641C1F5C#32 with inputs := [cmd 0xFF#8 0#32] }) =
      some (raiseErr (withAcc 0x641C1F5C#32)) := by decide
theorem test_wordle_reserved_without_word_path :
    after (step { noWordPath with inputs := [cmd 0x20#8 0x34333231#32] }) = some (raiseErr noWordPath) := by
  decide
theorem test_reset_beats_reserved_command :
    after (step { raiseErr (withAcc 0x7C231048#32) with
      inputs := [{ cmd 0xFF#8 0#32 with rst := true }] }) = some State.reset := by decide
theorem test_idle_edge :
    after (step { withAcc 0x7C231048#32 with inputs := [{ cmd 0xFF#8 0#32 with cmdValid := false }] }) =
      some (withAcc 0x7C231048#32) := by decide
theorem test_fetch_word_runs_first :
    after (step (State.reset.withFetchWord 40 0x1000000031)) = some (withAcc 0x7C231048#32) := by decide

/-! ### The ROM, the whole function and the host's sequences (sections 1, 2.9, 2.10 and 3) -/

theorem test_rom_2_128 : rom 2#3 128#8 = 0xE1351B80#32 := by decide +kernel
theorem test_rom_6_3 : rom 6#3 3#8 = 0x59BE4602#32 := by decide +kernel
theorem test_print_entry : printEntry 0xEDB88320#32 = "0xedb88320" := by decide
theorem test_check_value :
    crc32 0#32 [0x31#8, 0x32#8, 0x33#8, 0x34#8, 0x35#8, 0x36#8, 0x37#8, 0x38#8, 0x39#8] =
      0xCBF43926#32 := by decide +kernel
theorem test_other_seed :
    crc32 0x12345678#32 [0x31#8, 0x32#8, 0x33#8, 0x34#8, 0x35#8, 0x36#8, 0x37#8, 0x38#8, 0x39#8] =
      0x01F4807B#32 := by decide +kernel
theorem test_counts_base_3_len_5 : (leadCount 3 5, wordCount 3 5, tailCount 3 5) = (1, 1, 0) := by decide
theorem test_counts_base_2_len_33 : (leadCount 2 33, wordCount 2 33, tailCount 2 33) = (2, 7, 3) := by decide
theorem test_chunk_is_used_at_base_3_len_33 : (acceleratedPlan 0#32 3 33 .le).length = 10 := by decide
theorem test_accelerated_words :
    acceleratedCommands 0#32 { base := 0x1003, bytes := [0x65#8, 0x20#8, 0x71#8, 0x75#8, 0x69#8] } .le =
      some [.init 0#32, .byte 0x65#8, .wordle 0x69757120#32] := by decide

/-! ### The assembler (R91, R92) -/

theorem test_asm_byte_character : assembleText "BYTE ';' ; a comment" = some [.byte 0x3B#8] := by decide
theorem test_asm_init_hex : assembleText "INIT   0xCBF43926" = some [.init 0xCBF43926#32] := by decide
theorem test_asm_tread : assemble ["TREAD 0, 128", "; nothing"] = some [0x30_00000080#40] := by decide
theorem test_asm_str : assembleText "STR \"1;\"" = some [.byte 0x31#8, .byte 0x3B#8] := by decide
theorem test_asm_crc32w :
    assembleText "CRC32W 0, 0x65, 0x20, 0x71, 0x75, 0x69, 0x1003, be" =
      some [.init 0#32, .byte 0x65#8, .wordbe 0x20717569#32] := by decide
theorem test_asm_bytes_character : assembleText "BYTES 'A', 0x42" = some [.byte 0x41#8, .byte 0x42#8] := by decide
theorem test_asm_word_is_no_character :
    assembleText "INIT 'A'" = none ∧ assembleText "WORDLE 'A'" = none ∧ assembleText "TREAD 0, 'A'" = none := by
  decide
theorem test_asm_crc32w_character :
    assembleText "CRC32W 0, 'A', 'B', 'C', 'D', 0, le" = some [.init 0#32, .wordle 0x44434241#32] ∧
      assembleText "CRC32W 0, 'A', 'B', 'C', 'D', 'E', le" = none := by decide
theorem test_asm_empty_text : assembleText "STR \"\"" = some [] ∧ assembleText "BYTES" = none := by decide
theorem test_asm_no_blank_before_a_quote :
    assembleText "BYTE'A'" = some [.byte 0x41#8] ∧ assembleText "STR\"x\"" = some [.byte 0x78#8] := by decide
theorem test_asm_out_of_range : assembleText "BYTE 256" = none := by decide

/-! ### Witnesses: states and operands that meet the hypotheses of each statement

`witness_after_reset` meets those of every statement that asks only for a reset, the word path and no listed edge:
ByteFoldsOneByte, WordleFoldsThroughTablesThreeToZero, WordbeFoldsThroughTablesFourToSeven, OutputsShowTheRegisters,
WordStepsEqualFourByteSteps, SwappedAccumulatorIsEquivalent, EngineNeverStopsAfterReset,
BytewiseSequenceComputesTheCrc, AcceleratedSequenceComputesTheSameCrc. -/

theorem witness_reset_edge :
    let e : Edge := { cmd 0xFF#8 0#32 with rst := true }
    (unreset [e]).inputs = e :: [] ∧ e.rst = true := by decide
theorem witness_idle_edge :
    let e : Edge := { cmd 0xFF#8 0#32 with cmdValid := false }
    { State.reset with inputs := [e] }.inputs = e :: [] ∧ (e.cmdValid = false ∨ e.rst = true) := by decide
theorem witness_edge_with_reset_only :
    let e : Edge := { cmd 0xFF#8 0#32 with rst := true }
    e.cmdValid = true ∧ (e.cmdValid = false ∨ e.rst = true) := by decide
theorem witness_unlisted_edge : State.reset.inputs = [] := by decide
theorem witness_step_runs_command :
    let e := cmd 0x21#8 0x31323334#32
    { State.reset with inputs := [e, e] }.inputs = e :: [e] ∧ e.rst = false ∧ e.cmdValid = true ∧
      decode State.reset.wordPath (commandWord e.cmdOp e.cmdArg) = .command (.wordbe 0x31323334#32) := by decide
theorem witness_presented_command : (Instr.wordle 0#32).wellFormed State.reset.wordPath = true := by decide
theorem witness_two_commands :
    let s := present State.reset [.init 0#32, .wordle 0x34333231#32]
    (Instr.init 0#32).wellFormed s.wordPath = true ∧ (Instr.wordle 0x34333231#32).wellFormed s.wordPath = true ∧
      s.inputs = edgeOf (.init 0#32) :: edgeOf (.wordle 0x34333231#32) :: [] ∧
      after (exec (.init 0#32) { s with inputs := [edgeOf (.wordle 0x34333231#32)] }) =
        some { State.reset with inputs := [edgeOf (.wordle 0x34333231#32)] } := by decide
theorem witness_reserved_opcode_list :
    0x02#8 ∉ [0x00#8, 0x01#8, 0x10#8, 0x20#8, 0x21#8, 0x30#8] ∧
      0x31#8 ∉ [0x00#8, 0x01#8, 0x10#8, 0x20#8, 0x21#8, 0x30#8] := by decide
theorem witness_decoded_word : decode true 0x10_FFFFFF31#40 = .command (.byte 0x31#8) := by decide
theorem witness_words_alike :
    clearIgnored 0x10_FFFFFF31#40 = clearIgnored 0x10_00000031#40 ∧
      clearIgnored 0x30_FFFFF8FF#40 = clearIgnored 0x30_000000FF#40 := by decide
theorem witness_nop_edge :
    let e := cmd 0x00#8 0xFFFFFFFF#32
    { State.reset with inputs := [e] }.inputs = e :: [] ∧ e.rst = false ∧ e.cmdValid = true ∧
      e.cmdOp = 0x00#8 := by decide
theorem witness_init_completes : exec (.init 5#32) State.reset = .next (withAcc 0xFFFFFFFA#32) := by rfl
theorem witness_after_reset : State.reset.resetSeen = true ∧ State.reset.wordPath = true ∧
    State.reset.inputs = [] := by decide
theorem witness_after_reset_without_word_path :
    noWordPath.resetSeen = true ∧ noWordPath.wordPath = false := by decide
theorem witness_reserved_edges :
    let e := cmd 0x31#8 0xFFFFFFFF#32
    { State.reset with inputs := [e] }.inputs = e :: [] ∧ e.rst = false ∧ e.cmdValid = true ∧
      e.cmdOp ∉ [0x00#8, 0x01#8, 0x10#8, 0x30#8] ∧
      (State.reset.wordPath = true → e.cmdOp ≠ 0x20#8 ∧ e.cmdOp ≠ 0x21#8) := by decide
theorem witness_reserved_word_edges :
    let e := cmd 0x20#8 0#32
    { noWordPath with inputs := [e] }.inputs = e :: [] ∧ e.rst = false ∧ e.cmdValid = true ∧
      noWordPath.wordPath = false ∧ (e.cmdOp = 0x20#8 ∨ e.cmdOp = 0x21#8) ∧
      e.cmdOp ∉ [0x00#8, 0x01#8, 0x10#8, 0x30#8] := by decide
theorem witness_before_reset :
    (unreset []).resetSeen = false ∧ (unreset []).wordPath = true := by decide
theorem witness_acc_changes :
    after (step { State.reset with inputs := [cmd 0x10#8 0#32] }) = some (withAcc 0x2DFD1072#32) ∧
      (withAcc 0x2DFD1072#32).acc ≠ State.reset.acc := by decide
theorem witness_tbl_out_changes :
    let s := { State.reset with inputs := [cmd 0x30#8 0x80#32] }
    after (step s) = some (setTblOut State.reset 0xEDB88320#32) ∧ accepts (nextEdge s) = true ∧
      decode s.wordPath (portWord (nextEdge s)) = .command (.tread 0#3 128#8) ∧
      (setTblOut State.reset 0xEDB88320#32).tblOut ≠ s.tblOut := by decide
theorem witness_err_is_set :
    after (step { State.reset with inputs := [cmd 0x02#8 0#32] }) = some (raiseErr State.reset) ∧
      (raiseErr State.reset).err ≠ State.reset.err := by decide
theorem witness_err_is_cleared :
    after (step { raiseErr State.reset with inputs := [{ cmd 0x02#8 0#32 with rst := true }] }) =
      some State.reset ∧ State.reset.err ≠ (raiseErr State.reset).err := by decide
theorem witness_command_sets_err :
    after (exec (.wordle 0#32) noWordPath) = some (raiseErr noWordPath) ∧
      (raiseErr noWordPath).err ≠ noWordPath.err := by decide
theorem witness_table_numbers : 1 ≤ 1 ∧ 1 ≤ 3 ∧ 1 ≤ 3 ∧ 3 ≤ 3 := by decide
theorem witness_exponent_sets :
    (∀ e ∈ [0, 31], e ≤ 31) ∧ [0, 31].Nodup ∧ (∃ e ∈ [32], 31 < e) ∧ ¬ [5, 5].Nodup := by decide
theorem witness_word_command :
    ((∃ v, Instr.wordbe 1#32 = .wordle v) ∨ ∃ v, Instr.wordbe 1#32 = .wordbe v) := by simp
theorem witness_equal_lengths : [1#8, 2#8].length = [3#8, 4#8].length := by decide
theorem witness_history :
    let s := present State.reset [.byte 0x31#8, .nop]
    s.resetSeen = true ∧ s.inputs = [edgeOf (.byte 0x31#8)] ++ [edgeOf .nop] ∧
      s.acc = fold ((⟨0#32, []⟩ : History).seed ^^^ 0xFFFFFFFF#32) (⟨0#32, []⟩ : History).stream := by decide
theorem witness_mixed_widths :
    ∀ i ∈ [Instr.byte 1#8, .wordle 2#32, .wordbe 3#32],
      (∃ b, i = .byte b) ∨ (∃ v, i = .wordle v) ∨ ∃ v, i = .wordbe v := by simp
theorem witness_run_with_idle_edge :
    Host.Core.run core 2 { State.reset with inputs := [idleEdge, cmd 0x10#8 0x31#32] } =
      .next (withAcc 0x7C231048#32) := by rfl
theorem witness_invariant : State.reset.resetSeen = true ∧ State.reset.tblOut = romAt 0#11 ∧
    after (step { State.reset with inputs := [cmd 0x30#8 0x80#32] }) =
      some (setTblOut State.reset 0xEDB88320#32) := by decide
theorem witness_platform_edges :
    let p : Platform := { engines := [present State.reset [.nop], present State.reset [.init 0#32]] }
    let q : Platform := { engines := [State.reset, present State.reset [.init 0#32]] }
    let r : Platform := { engines := [State.reset, State.reset] }
    (0 ≠ 1) ∧ platformWellFormed p = true ∧ platformEdge p 0 = .next q ∧ platformEdge q 1 = .next r :=
  ⟨by decide, by decide, rfl, rfl⟩
theorem witness_sequence_values :
    acceleratedPlan 0#32 3 [1#8, 2#8].length .le = bytewisePlan 0#32 3 [1#8, 2#8].length ∨
      acceleratedPlan 0#32 3 [1#8, 2#8].length .le = acceleratedPlan 0#32 3 [1#8, 2#8].length .le := .inr rfl
theorem witness_chained_sequences :
    bytewiseCommands 0#32 { base := 1, bytes := [0x31#8] } = some [.init 0#32, .byte 0x31#8] ∧
      acceleratedCommands (crc32 0#32 [0x31#8]) { base := 4, bytes := [0x32#8, 0x33#8, 0x34#8, 0x35#8] } .be =
        some [.init (crc32 0#32 [0x31#8]), .wordbe 0x32333435#32] := by decide
theorem witness_self_test : State.reset.inputs = [] ∧ 0 < 2048 ∧ 2047 < 2048 := by decide
theorem witness_operands_in_range :
    7 < 8 ∧ 255 < 256 ∧ 0xFFFFFFFF < 2 ^ 32 ∧ (∀ b ∈ [0, 255], b < 256) ∧ ∀ b ∈ [0, 127], b < 128 := by
  decide

end Sys2Proof.Tests
end

section
/-! The byte swap as a permutation of the four bytes of a word (00_scope.md R10 to R12). -/

namespace Sys2Proof.Machine

/-- Byte `i` of a swapped word is byte `3 - i` of the word (R12). -/
theorem byteOf_bswap32 (v : Word) (i : Nat) (hi : i ≤ 3) : byteOf i (bswap32 v) = byteOf (3 - i) v := by
  obtain ⟨h0, h1, h2, h3⟩ := byteOf_concatBytes (byteOf 0 v) (byteOf 1 v) (byteOf 2 v) (byteOf 3 v)
  match i, hi with
  | 0, _ => exact h0
  | 1, _ => exact h1
  | 2, _ => exact h2
  | 3, _ => exact h3

/-- A word is the concatenation of its own bytes (R10, R11). -/
theorem concatBytes_byteOf (v : Word) :
    concatBytes (byteOf 3 v) (byteOf 2 v) (byteOf 1 v) (byteOf 0 v) = v := by
  have h32 : byteOf 3 v ++ byteOf 2 v = v.extractLsb' 16 16 :=
    BitVec.extractLsb'_append_extractLsb'_eq_extractLsb' rfl
  have h321 : v.extractLsb' 16 16 ++ byteOf 1 v = v.extractLsb' 8 24 :=
    BitVec.extractLsb'_append_extractLsb'_eq_extractLsb' rfl
  have h3210 : v.extractLsb' 8 24 ++ byteOf 0 v = v.extractLsb' 0 32 :=
    BitVec.extractLsb'_append_extractLsb'_eq_extractLsb' rfl
  rw [concatBytes, h32, h321, h3210, BitVec.extractLsb'_eq_self]

/-- Swapping twice puts every byte back in its place (R12). -/
@[simp] theorem bswap32_bswap32 (v : Word) : bswap32 (bswap32 v) = v :=
  calc bswap32 (bswap32 v)
      = concatBytes (byteOf 3 v) (byteOf 2 v) (byteOf 1 v) (byteOf 0 v) := by
        rw [bswap32]
        simp [byteOf_bswap32]
    _ = v := concatBytes_byteOf v

/-- Settles O37: the bytes are those of the concatenation that defines the swap, and two reversals of
four bytes cancel. -/
theorem byteSwapReversesBytes : Obligations.ByteSwapReversesBytes := fun v =>
  ⟨byteOf_bswap32 v, bswap32_bswap32 v⟩

end Sys2Proof.Machine
end

section
/-! What writes each register (10_state.md R23, R26, R27, R34): what a command and an edge can write, said once, and
the statements about the registers, the outputs and the invariant that follow from it. -/

namespace Sys2Proof.Machine

/-! ### What a command and an edge can write -/

/-- The decoder gives only commands that the instance has (R86, R88). -/
theorem wellFormed_of_decode {wordPath : Bool} {w : CommandWord} {i : Instr}
    (h : decode wordPath w = .command i) : i.wellFormed wordPath = true := by
  unfold decode at h
  split_ifs at h <;> cases h
  · rfl
  · rfl
  · rfl
  · exact ‹wordPath = true›
  · exact ‹wordPath = true›
  · rfl

/-- The commands whose destination is ACC (R23). -/
def WritesAcc (i : Instr) : Prop :=
  (∃ v, i = .init v) ∨ (∃ b, i = .byte b) ∨ (∃ v, i = .wordle v) ∨ ∃ v, i = .wordbe v

/-- TREAD completes in every state with the ROM entry in TBL_OUT (R130). -/
theorem exec_tread (k : BitVec 3) (n : Byte) (s : State) :
    exec (.tread k n) s = .next (setTblOut s (rom k n)) := by
  rw [exec, execTread, romAt_romAddress]

/-- A completed command writes nothing, or its own destination register, or ERR where the instance lacks it. -/
theorem exec_next_writes {i : Instr} {s t : State} (h : exec i s = .next t) :
    t = s ∨
    (WritesAcc i ∧ ∃ v, t = setAcc s v) ∨
    (∃ k n, i = .tread k n ∧ t = setTblOut s (rom k n)) ∨
    (i.wellFormed s.wordPath = false ∧ t = raiseErr s) := by
  obtain ⟨-, ht⟩ | ⟨v, hi, ht⟩ | ⟨b, hi, -, ht⟩ | ⟨v, hi, -, -, ht⟩ | ⟨v, hi, -, -, ht⟩ | ⟨k, n, hi, ht⟩ | hr :=
    exec_next_cases h
  · exact .inl ht
  · exact .inr (.inl ⟨.inl ⟨v, hi⟩, _, ht⟩)
  · exact .inr (.inl ⟨.inr (.inl ⟨b, hi⟩), _, ht⟩)
  · exact .inr (.inl ⟨.inr (.inr (.inl ⟨v, hi⟩)), _, ht⟩)
  · exact .inr (.inl ⟨.inr (.inr (.inr ⟨v, hi⟩)), _, ht⟩)
  · exact .inr (.inr (.inl ⟨k, n, hi, by rw [ht, romAt_romAddress]⟩))
  · exact .inr (.inr (.inr hr))

/-- An edge that accepts a command is that command's `exec`, with the edge off the list (R82, R88). -/
theorem step_of_command {s : State} {i : Instr} (ha : accepts (nextEdge s) = true)
    (hd : decode s.wordPath (portWord (nextEdge s)) = .command i) : step s = exec i (dropEdge s) := by
  have hr : (nextEdge s).rst = false := by simp_all [accepts]
  simp [step, clockEdge, acceptWord, hr, ha, hd]

/-- An edge keeps every register, resets them, or accepts a word and writes the one register that word names. ERR is
never a command's: the decoder gives no command that the instance lacks. -/
theorem step_next_writes {s t : State} (h : step s = .next t) :
    t = dropEdge s ∨
    ((nextEdge s).rst = true ∧ t = resetRegisters (dropEdge s)) ∨
    (accepts (nextEdge s) = true ∧ ∃ i, decode s.wordPath (portWord (nextEdge s)) = .command i ∧
      WritesAcc i ∧ ∃ v, t = setAcc (dropEdge s) v) ∨
    (accepts (nextEdge s) = true ∧ ∃ k n,
      decode s.wordPath (portWord (nextEdge s)) = .command (.tread k n) ∧
      t = setTblOut (dropEdge s) (rom k n)) ∨
    ((nextEdge s).rst = false ∧ accepts (nextEdge s) = true ∧
      ∃ op, decode s.wordPath (portWord (nextEdge s)) = .reserved op ∧ t = raiseErr (dropEdge s)) := by
  obtain ⟨hr, he⟩ | ⟨-, -, he⟩ | ⟨hr, hv, i, hd, he⟩ | ⟨hr, hv, op, hd, he⟩ :=
      clockEdge_cases (nextEdge s) (dropEdge s) <;> rw [step, he] at h
  · exact .inr (.inl ⟨hr, by simpa using h.symm⟩)
  · exact .inl (by simpa using h.symm)
  · have ha : accepts (nextEdge s) = true := by simp [accepts, hr, hv]
    obtain ht | ⟨hi, ht⟩ | ⟨k, n, rfl, ht⟩ | ⟨hf, -⟩ := exec_next_writes h
    · exact .inl ht
    · exact .inr (.inr (.inl ⟨ha, i, hd, hi, ht⟩))
    · exact .inr (.inr (.inr (.inl ⟨ha, k, n, hd, ht⟩)))
    · exact absurd ((wellFormed_of_decode hd).symm.trans hf) (by decide)
  · have ha : accepts (nextEdge s) = true := by simp [accepts, hr, hv]
    exact .inr (.inr (.inr (.inr ⟨hr, ha, op, hd, by simpa using h.symm⟩)))

/-! ### The invariant -/

/-- The first entry of the ROM is the reset value of TBL_OUT (R50). -/
theorem romAt_zero : romAt 0#11 = 0x00000000#32 := by decide

/-- Settles O46: an edge keeps TBL_OUT, or writes the reset value, which is entry 0, or the entry a TREAD reads. -/
theorem stepKeepsTheInvariant : Obligations.StepKeepsTheInvariant := by
  rintro s t ⟨hs, a, ha⟩ h
  obtain rfl | ⟨-, rfl⟩ | ⟨-, _, -, -, _, rfl⟩ | ⟨-, k, n, -, rfl⟩ | ⟨-, -, _, -, rfl⟩ := step_next_writes h
  · exact ⟨hs, a, ha⟩
  · exact ⟨rfl, 0#11, romAt_zero.symm⟩
  · exact ⟨hs, a, ha⟩
  · exact ⟨hs, romAddress k n, (romAt_romAddress k n).symm⟩
  · exact ⟨hs, a, ha⟩

/-- Settles O47: a reset has been seen, and TBL_OUT holds entry 0 of the ROM. -/
theorem resetHasTheInvariant : Obligations.ResetHasTheInvariant :=
  ⟨reset_resetSeen, 0#11, romAt_zero.symm⟩

/-! ### What writes each register -/

/-- Settles O28: of the writes an edge can make, only reset and a command with destination ACC touch ACC. -/
theorem accIsWrittenOnlyByInitDataAndReset : Obligations.AccIsWrittenOnlyByInitDataAndReset := by
  intro s t h hne
  obtain rfl | ⟨hr, -⟩ | ⟨ha, i, hd, hi, -⟩ | ⟨-, _, _, -, rfl⟩ | ⟨-, -, _, -, rfl⟩ := step_next_writes h
  · exact absurd rfl hne
  · exact .inl hr
  · exact .inr ⟨ha, i, hd, hi⟩
  · exact absurd rfl hne
  · exact absurd rfl hne

/-- Settles O29: an accepted TREAD runs as `exec` gives it, and no other write but reset touches TBL_OUT. -/
theorem tblOutIsWrittenOnlyByTreadAndReset : Obligations.TblOutIsWrittenOnlyByTreadAndReset := by
  refine ⟨fun s t k n h ha hd => ?_, fun s t h hne => ?_⟩
  · rw [step_of_command ha hd, exec_tread] at h
    cases h
    rfl
  · obtain rfl | ⟨hr, -⟩ | ⟨-, _, -, -, _, rfl⟩ | ⟨ha, k, n, hd, -⟩ | ⟨-, -, _, -, rfl⟩ := step_next_writes h
    · exact absurd rfl hne
    · exact .inl hr
    · exact absurd rfl hne
    · exact .inr ⟨ha, k, n, hd⟩
    · exact absurd rfl hne

/-- Bit 0 of the status output is ERR (R27, R32). -/
theorem statusOut_getLsbD_zero (s : State) : (statusOut s).getLsbD 0 = s.err.getLsbD 0 := by
  simp [statusOut, statusWord]

/-- The status output reads 0 above bit 0 (R27, R32). -/
theorem statusOut_getLsbD_of_pos (s : State) (i : Nat) (hi : 0 < i) : (statusOut s).getLsbD i = false := by
  simp [statusOut, statusWord, BitVec.getLsbD_of_ge s.err i hi]

/-- Settles O30: of the writes an edge can make, only reset and a reserved opcode touch ERR. -/
theorem errIsSetByReservedOpcodesAndClearedByReset :
    Obligations.ErrIsSetByReservedOpcodesAndClearedByReset := by
  refine ⟨fun s => ⟨statusOut_getLsbD_zero s, statusOut_getLsbD_of_pos s⟩, fun s t h hne => ?_⟩
  obtain rfl | ⟨hr, rfl⟩ | ⟨-, _, -, -, _, rfl⟩ | ⟨-, _, _, -, rfl⟩ | ⟨hr, ha, op, hd, rfl⟩ :=
    step_next_writes h
  · exact absurd rfl hne
  · exact .inl ⟨hr, rfl⟩
  · exact absurd rfl hne
  · exact absurd rfl hne
  · exact .inr ⟨hr, rfl, ha, op, hd⟩

/-- Settles O31: a completed command makes one of four writes, and each leaves all but one register as it was. -/
theorem commandsWriteOnlyTheirDestination : Obligations.CommandsWriteOnlyTheirDestination := by
  intro i s t h
  obtain rfl | ⟨hi, v, rfl⟩ | ⟨k, n, rfl, rfl⟩ | ⟨hf, rfl⟩ := exec_next_writes h
  · simp
  · exact ⟨fun _ => hi, by simp⟩
  · simp
  · simp [hf]

/-! ### The reset values and the outputs -/

/-- Settles O2: the reset values are the fields of the reset state, and `INIT 0` complements 0. -/
theorem resetStateHoldsResetValues : Obligations.ResetStateHoldsResetValues :=
  ⟨reset_acc, reset_tblOut, reset_err, by decide, by decide, fun _ => rfl⟩

/-- Settles O26: each output is its register's function by definition, and a sample after reset gives it. -/
theorem outputsShowTheRegisters : Obligations.OutputsShowTheRegisters := fun s =>
  ⟨rfl, rfl, rfl, rfl, statusOut_getLsbD_of_pos s, fun h =>
    ⟨sample_of_reset h .crcOut, sample_of_reset h .accOut, sample_of_reset h .tblOut,
      sample_of_reset h .statusOut⟩⟩

end Sys2Proof.Machine
end

section
/-! The decoder reads an encoded command back (30_encoding.md R80 to R88). -/

namespace Sys2Proof

/-- Format B: the encoder's operand field holds the byte (R83). -/
@[simp] theorem byteOperand_byteArg (b : Byte) : byteOperand (Instr.byte b).arg = b := by
  refine BitVec.eq_of_getLsbD_eq fun i hi => ?_
  rw [byteOperand, BitVec.getLsbD_extractLsb', getLsbD_byteArg]
  simp [hi]

/-- Format T: the encoder's operand field holds the table number (R83). -/
@[simp] theorem tableOperand_treadArg (k : BitVec 3) (n : Byte) : tableOperand (Instr.tread k n).arg = k := by
  refine BitVec.eq_of_getLsbD_eq fun i hi => ?_
  have hk : 8 + i < 11 := by omega
  rw [tableOperand, BitVec.getLsbD_extractLsb', getLsbD_treadArg]
  simp [hi, hk]

/-- Format T: the encoder's operand field holds the entry number (R83). -/
@[simp] theorem entryOperand_treadArg (k : BitVec 3) (n : Byte) : entryOperand (Instr.tread k n).arg = n := by
  refine BitVec.eq_of_getLsbD_eq fun i hi => ?_
  rw [entryOperand, BitVec.getLsbD_extractLsb', getLsbD_treadArg]
  simp [hi]

/-- The opcode field of an encoded command (R80, R85). -/
@[simp] theorem opcodeOf_encode (i : Instr) : opcodeOf (encode i) = i.opcode :=
  opcodeOf_commandWord _ _

/-- The operand field of an encoded command (R80, R83). -/
@[simp] theorem argOf_encode (i : Instr) : argOf (encode i) = i.arg :=
  argOf_commandWord _ _

/-- The decoder reads back every command that the instance has (R82, R86, R88). -/
theorem decode_encode {wordPath : Bool} {i : Instr} (h : i.wellFormed wordPath = true) :
    decode wordPath (encode i) = .command i := by
  rw [decode, opcodeOf_encode, argOf_encode]
  cases i with
  | nop => rfl
  | init v => rfl
  | byte b => simp [Instr.opcode]
  | wordle v =>
    have hw : wordPath = true := h
    simp [Instr.opcode, Instr.arg, hw]
  | wordbe v =>
    have hw : wordPath = true := h
    simp [Instr.opcode, Instr.arg, hw]
  | tread k n => simp [Instr.opcode]

end Sys2Proof
end

section
/-! Commands at consecutive edges (20_memory.md R62, R76, 70_reset_and_hazards.md R185): an edge that presents a
command runs it, and what it leaves is what the next edge starts from. -/

namespace Sys2Proof.Machine

/-- An edge that presents a command of the instance runs it on the state with that edge off the list (R82, R90). -/
theorem step_edgeOf {s : State} {i : Instr} {rest : List Edge} (hi : i.wellFormed s.wordPath = true)
    (h : s.inputs = edgeOf i :: rest) : step s = exec i { s with inputs := rest } := by
  have hne : nextEdge s = edgeOf i := nextEdge_cons h
  have hd : decode s.wordPath (portWord (nextEdge s)) = .command i := by
    rw [hne, edgeOf, portWord_edgeOfWord, decode_encode hi]
  rw [step_of_command (by rw [hne]; rfl) hd, dropEdge_cons h]

/-- A completed command takes no edge off the list and changes no parameter. -/
theorem exec_next_keeps_wordPath_inputs {i : Instr} {s t : State} (h : exec i s = .next t) :
    t.wordPath = s.wordPath ∧ t.inputs = s.inputs := by
  obtain ⟨-, -, -, -, hw, hin⟩ := commandsWriteOnlyTheirDestination i s t h
  exact ⟨hw, hin⟩

/-- Settles O8: the first command leaves the second's edge at the head of the list and WORD_PATH as it was, so the
next step runs the second on that state. -/
theorem nextCommandSeesTheOneBefore : Obligations.NextCommandSeesTheOneBefore := by
  intro s t i j rest hi hj hs he
  obtain ⟨hw, hin⟩ := exec_next_keeps_wordPath_inputs he
  have h1 : step s = .next t := (step_edgeOf hi hs).trans he
  have hj' : j.wellFormed t.wordPath = true := by rw [hw]; exact hj
  exact ⟨run_succ_of_next 0 h1, step_edgeOf hj' hin⟩

end Sys2Proof.Machine
end

section
/-! The packing of four stream bytes into a word (20_memory.md R72, 41_crc_datapath.md R116). -/

namespace Sys2Proof.Machine

/-- A byte moved up to bit `k` of a word has its bits there, and 0 elsewhere. -/
theorem getLsbD_setWidth_shiftLeft (b : Byte) (k : Nat) {i : Nat} (hi : i < 32) :
    (b.setWidth 32 <<< k).getLsbD i = if k ≤ i ∧ i < k + 8 then b.getLsbD (i - k) else false := by
  rw [BitVec.getLsbD_shiftLeft, BitVec.getLsbD_setWidth]
  split
  · next h => simp [hi, show ¬ i < k by omega, show i - k < 32 by omega]
  · next h =>
    obtain hk | hk : i < k ∨ 8 ≤ i - k := by omega
    · simp [hk]
    · simp [BitVec.getLsbD_of_ge b (i - k) hk]

/-- A concatenation of four bytes as an OR of shifts (R11, R72): bit `i` is in one byte, and the other three are 0
there. -/
theorem concatBytes_eq_shifts (b3 b2 b1 b0 : Byte) :
    concatBytes b3 b2 b1 b0 = (b0.setWidth 32 ||| b1.setWidth 32 <<< 8 ||| b2.setWidth 32 <<< 16 |||
      b3.setWidth 32 <<< 24) := by
  refine BitVec.eq_of_getLsbD_eq fun i hi => ?_
  have h0 : (b0.setWidth 32).getLsbD i = if 0 ≤ i ∧ i < 0 + 8 then b0.getLsbD (i - 0) else false := by
    rw [← getLsbD_setWidth_shiftLeft b0 0 hi, BitVec.shiftLeft_zero]
  rw [getLsbD_concatBytes]
  simp only [BitVec.getLsbD_or, h0, getLsbD_setWidth_shiftLeft _ _ hi]
  split
  · simp (disch := omega) [if_pos, if_neg]
  split
  · simp (disch := omega) [if_pos, if_neg]
  split
  · simp (disch := omega) [if_pos, if_neg]
  · simp (disch := omega) [if_pos]

/-- The stream bytes of a little-endian word are the bytes it packs (R72, R112). -/
@[simp] theorem leBytes_packLE (b0 b1 b2 b3 : Byte) : leBytes (packLE b0 b1 b2 b3) = [b0, b1, b2, b3] := by
  obtain ⟨h0, h1, h2, h3⟩ := byteOf_concatBytes b3 b2 b1 b0
  rw [leBytes, packLE, h0, h1, h2, h3]

/-- The stream bytes of a big-endian word are the bytes it packs (R72, R114). -/
@[simp] theorem beBytes_packBE (b0 b1 b2 b3 : Byte) : beBytes (packBE b0 b1 b2 b3) = [b0, b1, b2, b3] := by
  obtain ⟨h0, h1, h2, h3⟩ := byteOf_concatBytes b0 b1 b2 b3
  rw [beBytes, packBE, h0, h1, h2, h3]

/-- Four words ORed in either order. -/
theorem or_four_reverse (a b c d : Word) : (a ||| b ||| c ||| d) = (d ||| c ||| b ||| a) := by
  ac_rfl

/-- Settles O38: a packed word is a concatenation, whose shifts and whose bytes are known. -/
theorem wordsPackStreamBytes : Obligations.WordsPackStreamBytes := by
  intro b0 b1 b2 b3
  refine ⟨concatBytes_eq_shifts b3 b2 b1 b0, ?_, leBytes_packLE b0 b1 b2 b3, beBytes_packBE b0 b1 b2 b3⟩
  rw [packBE, concatBytes_eq_shifts, or_four_reverse]

end Sys2Proof.Machine
end

section
/-! The table ROM: its image in the order of its addresses (20_memory.md R52, R56) and the algorithm that makes its
entries (R45 to R47). -/

namespace Sys2Proof.Machine

/-! ### The image -/

/-- The address of entry `n` of table `k` as a number (R56). -/
theorem romAddress_eq_ofNat (k : BitVec 3) (n : Byte) :
    romAddress k n = BitVec.ofNat 11 (256 * k.toNat + n.toNat) := by
  apply BitVec.eq_of_toNat_eq
  have hk := k.isLt
  have hn := n.isLt
  rw [romAddress, BitVec.toNat_append, ← Nat.shiftLeft_add_eq_or_of_lt hn, Nat.shiftLeft_eq, BitVec.toNat_ofNat]
  omega

theorem romImage_length : romImage.length = 2048 := by
  simp [romImage, Config.tables, Config.entries]

/-- The image lists the ROM in the order of its addresses (R52). -/
theorem romImage_getElem? {a : Nat} (h : a < 2048) : romImage[a]? = some (romAt (BitVec.ofNat 11 a)) := by
  simp [romImage, Config.tables, Config.entries, h]

/-- Settles O36: the place `256*k + n` of the image is the ROM address of entry `n` of table `k`. -/
theorem romImageIsTableMajor : Obligations.RomImageIsTableMajor := by
  refine ⟨romImage_length, fun k n => ?_⟩
  have hk := k.isLt
  have hn := n.isLt
  rw [romImage_getElem? (by omega), ← romAddress_eq_ofNat, romAt_romAddress]

/-! ### The generation algorithm -/

/-- Tables 0 to 3 are the little-endian ones (R45, R47). -/
theorem rom_eq_tableLE {k : Nat} (hk : k < 4) (n : Byte) :
    rom (BitVec.ofNat 3 k) n = tableLE Config.poly k n := by
  have hm : (BitVec.ofNat 3 k).toNat = k := by rw [BitVec.toNat_ofNat]; omega
  rw [rom, romOf, hm, if_pos hk]

/-- Tables 4 to 7 are the byte-swapped tables 0 to 3 (R46, R47). -/
theorem rom_add_four {k : Nat} (hk : k < 4) (n : Byte) :
    rom (BitVec.ofNat 3 (k + 4)) n = bswap32 (rom (BitVec.ofNat 3 k) n) := by
  have hm : (BitVec.ofNat 3 (k + 4)).toNat = k + 4 := by rw [BitVec.toNat_ofNat]; omega
  rw [rom_eq_tableLE hk, rom, romOf, hm, if_neg (by omega), Nat.add_sub_cancel]

/-- Table `k + 1` folds table `k` forward once (R47). -/
theorem rom_succ {k : Nat} (hk : k < 3) (n : Byte) :
    rom (BitVec.ofNat 3 (k + 1)) n =
      rom 0 (byteOf 0 (rom (BitVec.ofNat 3 k) n)) ^^^ (rom (BitVec.ofNat 3 k) n >>> 8) := by
  rw [rom_eq_tableLE (by omega : k + 1 < 4), rom_eq_tableLE (by omega : k < 4)]
  rfl

/-- Settles O32: table 0 is the loop itself, and the other tables are made from it. -/
theorem romFollowsTheGenerationAlgorithm : Obligations.RomFollowsTheGenerationAlgorithm := by
  refine ⟨fun n => rfl, fun n => rom_add_four (k := 0) (by decide) n, fun k n h1 h3 => ?_⟩
  obtain ⟨m, rfl⟩ : ∃ m, k = m + 1 := ⟨k - 1, by omega⟩
  exact ⟨rom_succ (by omega) n, rom_add_four (by omega) n⟩

end Sys2Proof.Machine
end

section
/-! The host's self-test (42_table_read.md R130, R131): TREAD of every ROM address in order. -/

namespace Sys2Proof.Machine

/-- A run of TREADs shows the entry the last one reads, and changes nothing else (R60, R130). -/
theorem run_treads {k : BitVec 3} {n : Byte} {rest : List Edge} (is : List Instr)
    (his : ∀ i ∈ is, ∃ k n, i = .tread k n) (s : State)
    (h : s.inputs = is.map edgeOf ++ edgeOf (.tread k n) :: rest) :
    Host.Core.run core (is.length + 1) s = .next { s with tblOut := rom k n, inputs := rest } := by
  induction is generalizing s with
  | nil =>
    have hs : step s = .next (setTblOut { s with inputs := rest } (rom k n)) :=
      (step_edgeOf rfl h).trans (exec_tread k n _)
    exact run_succ_of_next 0 hs
  | cons i is ih =>
    obtain ⟨k', n', rfl⟩ := his i List.mem_cons_self
    have hs : step s =
        .next (setTblOut { s with inputs := is.map edgeOf ++ edgeOf (.tread k n) :: rest } (rom k' n')) :=
      (step_edgeOf rfl h).trans (exec_tread k' n' _)
    rw [List.length_cons, run_succ_of_next _ hs]
    exact ih (fun i hi => his i (List.mem_cons_of_mem _ hi)) _ rfl

/-- The self-test issues nothing but TREADs (R131). -/
theorem selfTestCommands_treads : ∀ i ∈ selfTestCommands, ∃ k n, i = .tread k n := by
  simp [selfTestCommands]

theorem selfTestCommands_length : selfTestCommands.length = 2048 := by
  simp [selfTestCommands, Config.tables, Config.entries]

/-- The self-test's command number `j` has `j` as the operand field it is cut from (R83, R131). -/
theorem selfTestCommands_getElem {j : Nat} (h : j < selfTestCommands.length) :
    selfTestCommands[j] = .tread (tableOperand (BitVec.ofNat 32 j)) (entryOperand (BitVec.ofNat 32 j)) := by
  simp [selfTestCommands]

/-- The self-test's TREAD number `j` names ROM address `j`, so it reads the image's entry `j` (R52, R131). -/
theorem rom_selfTestOperands {j : Nat} (hj : j < 2048) :
    rom (tableOperand (BitVec.ofNat 32 j)) (entryOperand (BitVec.ofNat 32 j)) = romAt (BitVec.ofNat 11 j) := by
  have ht : tableOperand (BitVec.ofNat 32 j) = (BitVec.ofNat 11 j).extractLsb' 8 3 := by
    apply BitVec.eq_of_toNat_eq
    simp only [tableOperand, BitVec.extractLsb'_toNat, BitVec.toNat_ofNat, Nat.shiftRight_eq_div_pow]
    omega
  have hn : entryOperand (BitVec.ofNat 32 j) = (BitVec.ofNat 11 j).extractLsb' 0 8 := by
    apply BitVec.eq_of_toNat_eq
    simp only [entryOperand, BitVec.extractLsb'_toNat, BitVec.toNat_ofNat, Nat.shiftRight_eq_div_pow]
    omega
  rw [ht, hn, romAt]

/-- Settles O56: the first `j` TREADs and then the one of address `j` are a run of TREADs, which leaves ACC and ERR. -/
theorem selfTestReadsTheRomImage : Obligations.SelfTestReadsTheRomImage := by
  intro s j hs hj
  have hlen : j < selfTestCommands.length := by rw [selfTestCommands_length]; exact hj
  have hin : (present s selfTestCommands).inputs = (selfTestCommands.take j).map edgeOf ++
      edgeOf selfTestCommands[j] :: (selfTestCommands.drop (j + 1)).map edgeOf := by
    rw [present_inputs, hs, List.nil_append, ← List.map_cons, List.getElem_cons_drop, ← List.map_append,
      List.take_append_drop]
  rw [selfTestCommands_getElem] at hin
  have hrun := run_treads (selfTestCommands.take j)
    (fun i hi => selfTestCommands_treads i (List.mem_of_mem_take hi)) _ hin
  rw [List.length_take_of_le hlen.le] at hrun
  exact ⟨_, hrun, by rw [romImage_getElem? hj, ← rom_selfTestOperands hj]; rfl, rfl, rfl⟩

end Sys2Proof.Machine
end

section
/-! The decoder read by its opcode field (30_encoding.md R83 to R88): what each opcode decodes to, which opcodes are
reserved, and what a decoding keeps of the word. -/

namespace Sys2Proof

/-! ### What each opcode decodes to -/

theorem decode_of_opcode_nop {w : CommandWord} (wordPath : Bool) (h : opcodeOf w = 0x00#8) :
    decode wordPath w = .command .nop := by
  simp [decode, h]

theorem decode_of_opcode_init {w : CommandWord} (wordPath : Bool) (h : opcodeOf w = 0x01#8) :
    decode wordPath w = .command (.init (argOf w)) := by
  simp [decode, h]

theorem decode_of_opcode_byte {w : CommandWord} (wordPath : Bool) (h : opcodeOf w = 0x10#8) :
    decode wordPath w = .command (.byte (byteOperand (argOf w))) := by
  simp [decode, h]

theorem decode_of_opcode_wordle {w : CommandWord} (wordPath : Bool) (h : opcodeOf w = 0x20#8) :
    decode wordPath w = if wordPath then .command (.wordle (argOf w)) else .reserved 0x20#8 := by
  simp [decode, h]

theorem decode_of_opcode_wordbe {w : CommandWord} (wordPath : Bool) (h : opcodeOf w = 0x21#8) :
    decode wordPath w = if wordPath then .command (.wordbe (argOf w)) else .reserved 0x21#8 := by
  simp [decode, h]

theorem decode_of_opcode_tread {w : CommandWord} (wordPath : Bool) (h : opcodeOf w = 0x30#8) :
    decode wordPath w = .command (.tread (tableOperand (argOf w)) (entryOperand (argOf w))) := by
  simp [decode, h]

/-- A word is reserved by its opcode alone: R85 does not assign it, or R86 takes it away (R88). -/
theorem decode_eq_reserved_iff {wordPath : Bool} {w : CommandWord} {op : Byte} :
    decode wordPath w = .reserved op ↔ op = opcodeOf w ∧
      op ∉ [0x00#8, 0x01#8, 0x10#8, 0x30#8] ∧ (wordPath = true → op ≠ 0x20#8 ∧ op ≠ 0x21#8) := by
  constructor
  · intro h
    unfold decode at h
    split_ifs at h <;> cases h <;> simp_all
  · rintro ⟨rfl, h, hw⟩
    simp only [List.mem_cons, List.not_mem_nil, or_false, not_or] at h
    obtain ⟨hnop, hinit, hbyte, htread⟩ := h
    cases wordPath with
    | true =>
      obtain ⟨hle, hbe⟩ := hw rfl
      simp [decode, *]
    | false => simp [decode, *]

/-- Settles O9: the six assigned opcodes one by one, and no other opcode is assigned by R85. -/
theorem decoderReadsEveryOpcode : Obligations.DecoderReadsEveryOpcode := by
  intro wordPath arg
  have hop (op : Byte) : opcodeOf (commandWord op arg) = op := opcodeOf_commandWord op arg
  refine ⟨decode_of_opcode_nop _ (hop _), ?_, ?_, ?_, ?_, ?_, fun op h => ?_⟩
  · rw [decode_of_opcode_init _ (hop _), argOf_commandWord]
  · rw [decode_of_opcode_byte _ (hop _), argOf_commandWord, byteOperand]
  · rw [decode_of_opcode_wordle _ (hop _), argOf_commandWord]
  · rw [decode_of_opcode_wordbe _ (hop _), argOf_commandWord]
  · rw [decode_of_opcode_tread _ (hop _), argOf_commandWord, tableOperand, entryOperand]
  · exact decode_eq_reserved_iff.mpr ⟨(hop op).symm, by simp_all⟩

/-- Settles O14: fixed words, which the decoder evaluates. -/
theorem writtenOutWordsDecode : Obligations.WrittenOutWordsDecode := by
  unfold Obligations.WrittenOutWordsDecode
  decide

/-! ### The reserved opcodes as ranges -/

/-- The opcodes between the assigned ones (R85). -/
theorem unassigned_iff_mem_ranges (op : Byte) :
    (op ∉ [0x00#8, 0x01#8, 0x10#8, 0x30#8] ∧ op ≠ 0x20#8 ∧ op ≠ 0x21#8) ↔
      (0x02 ≤ op.toNat ∧ op.toNat ≤ 0x0F) ∨ (0x11 ≤ op.toNat ∧ op.toNat ≤ 0x1F) ∨
      (0x22 ≤ op.toNat ∧ op.toNat ≤ 0x2F) ∨ (0x31 ≤ op.toNat ∧ op.toNat ≤ 0xFF) := by
  have := op.isLt
  simp only [List.mem_cons, List.not_mem_nil, or_false, ne_eq, ← BitVec.toNat_inj, BitVec.toNat_ofNat]
  omega

/-- With the word path the reserved opcodes are the four ranges of the opcode map (R85). -/
theorem decode_true_reserved_iff (op : Byte) (arg : Word) :
    decode true (commandWord op arg) = .reserved op ↔
      (0x02 ≤ op.toNat ∧ op.toNat ≤ 0x0F) ∨ (0x11 ≤ op.toNat ∧ op.toNat ≤ 0x1F) ∨
      (0x22 ≤ op.toNat ∧ op.toNat ≤ 0x2F) ∨ (0x31 ≤ op.toNat ∧ op.toNat ≤ 0xFF) := by
  rw [← unassigned_iff_mem_ranges, decode_eq_reserved_iff]
  simp

/-- Settles O10: the unassigned opcodes lie between the six assigned ones, and 14 + 15 + 14 + 207 = 250. -/
theorem reservedOpcodesAreTheFourRanges : Obligations.ReservedOpcodesAreTheFourRanges := by
  refine ⟨decode_true_reserved_iff, ?_⟩
  simp only [decode_true_reserved_iff]
  decide +kernel

/-! ### What a decoding keeps of the word -/

/-- Settles O11: the encoder writes the fields that the decoder reads. -/
theorem decodeOfEncodeIsTheCommand : Obligations.DecodeOfEncodeIsTheCommand := fun _ _ h => decode_encode h

/-- A mask of the low `n` bits of a word. -/
theorem getLsbD_lowMask (n : Nat) {i : Nat} (hi : i < 32) :
    (BitVec.ofNat 32 (2 ^ n - 1)).getLsbD i = decide (i < n) := by
  rw [BitVec.getLsbD_ofNat, Nat.testBit_two_pow_sub_one, decide_eq_true hi, Bool.true_and]

/-- Format B reads the low 8 bits of the operand field (R83). -/
theorem byteArg_byteOperand (a : Word) : (Instr.byte (byteOperand a)).arg = a &&& 0x000000FF#32 := by
  refine BitVec.eq_of_getLsbD_eq fun i hi => ?_
  have hm : (0x000000FF#32).getLsbD i = decide (i < 8) := getLsbD_lowMask 8 hi
  rw [getLsbD_byteArg, byteOperand, BitVec.getLsbD_extractLsb', BitVec.getLsbD_and, hm]
  split <;> simp [*]

/-- Format T reads the low 11 bits of the operand field (R83). -/
theorem treadArg_operands (a : Word) :
    (Instr.tread (tableOperand a) (entryOperand a)).arg = a &&& 0x000007FF#32 := by
  refine BitVec.eq_of_getLsbD_eq fun i hi => ?_
  have hm : (0x000007FF#32).getLsbD i = decide (i < 11) := getLsbD_lowMask 11 hi
  rw [getLsbD_treadArg, tableOperand, entryOperand, BitVec.getLsbD_extractLsb', BitVec.getLsbD_extractLsb',
    BitVec.getLsbD_and, hm]
  split
  · have : i < 11 := by omega
    simp [*]
  split
  · have h3 : i - 8 < 3 := by omega
    have h8 : 8 + (i - 8) = i := by omega
    simp [*]
  · simp [*]

/-- A decoded command has the word's opcode, and its operand field is the word's with the ignored bits 0 (R83,
R84). -/
theorem fields_of_decode {wordPath : Bool} {w : CommandWord} {i : Instr}
    (h : decode wordPath w = .command i) :
    i.opcode = opcodeOf w ∧ i.arg = argOf w &&& usedArgBits (opcodeOf w) := by
  unfold decode at h
  split_ifs at h <;> cases h <;> simp only [*]
  · exact ⟨rfl, BitVec.and_zero.symm⟩
  · exact ⟨rfl, (Laws.EncodeFields.and_allOnes _).symm⟩
  · exact ⟨rfl, byteArg_byteOperand _⟩
  · exact ⟨rfl, (Laws.EncodeFields.and_allOnes _).symm⟩
  · exact ⟨rfl, (Laws.EncodeFields.and_allOnes _).symm⟩
  · exact ⟨rfl, treadArg_operands _⟩

/-- Encoding a decoding clears the word's ignored bits (R83, R84). -/
theorem encode_of_decode {wordPath : Bool} {w : CommandWord} {i : Instr}
    (h : decode wordPath w = .command i) : encode i = clearIgnored w := by
  obtain ⟨hop, harg⟩ := fields_of_decode h
  rw [encode, hop, harg, clearIgnored]

/-- Settles O12: both fields of the word are those of the command, but for the ignored bits. -/
theorem encodeOfDecodeClearsIgnoredBits : Obligations.EncodeOfDecodeClearsIgnoredBits := fun _ _ _ h =>
  ⟨encode_of_decode h, Machine.wellFormed_of_decode h⟩

/-- The ignored bits have no part in the decoding: a command is encoded without them, and a reserved opcode is
reserved whatever the operand field (R84). -/
theorem decode_clearIgnored (wordPath : Bool) (w : CommandWord) :
    decode wordPath (clearIgnored w) = decode wordPath w := by
  cases h : decode wordPath w with
  | command i => rw [← encode_of_decode h, decode_encode (Machine.wellFormed_of_decode h)]
  | reserved op =>
    rw [decode_eq_reserved_iff] at h ⊢
    rwa [clearIgnored, opcodeOf_commandWord]

/-- The encoder writes 0 in the ignored bits (R84, R91). -/
theorem clearIgnored_encode (i : Instr) : clearIgnored (encode i) = encode i := by
  have hwf : i.wellFormed true = true := by cases i <;> rfl
  exact (encode_of_decode (decode_encode hwf)).symm

end Sys2Proof
end

section
/-! What an edge does by what its word decodes to (30_encoding.md R82 to R90, 70_reset_and_hazards.md R180). -/

namespace Sys2Proof.Machine

/-- Settles O4: of the two branches of an edge that accept nothing, reset comes first. -/
theorem edgeWithoutCommandKeepsRegisters : Obligations.EdgeWithoutCommandKeepsRegisters := by
  intro s e rest hs he
  rw [step_cons hs, clockEdge]
  cases hr : e.rst with
  | true => rfl
  | false =>
    have hv : e.cmdValid = false := he.resolve_right (by simp [hr])
    simp [accepts, hv]

/-- Settles O6: the port's word is the one decoded, and the edge is taken off the list. -/
theorem stepRunsTheDecodedCommand : Obligations.StepRunsTheDecodedCommand := by
  intro s e rest i hs hr hv hd
  have hne : nextEdge s = e := nextEdge_cons hs
  rw [step_of_command (by simp [hne, accepts, hr, hv]) (by rw [hne]; exact hd), dropEdge_cons hs]

/-- Settles O7: the host's word is the encoded command's, so the edge in front is the one that presents it. -/
theorem presentedCommandRunsNext : Obligations.PresentedCommandRunsNext := by
  intro s i hi
  have hin : (s.withFetchWord 40 (encode i).toNat).inputs = edgeOf i :: s.inputs := by
    rw [State.withFetchWord, tableWord_toNat, edgeOf]
  exact step_edgeOf hi hin

/-- An edge that accepts a reserved opcode sets ERR and does nothing else (R88, R150). -/
theorem step_of_reserved {s : State} {e : Edge} {rest : List Edge} {op : Byte} (hs : s.inputs = e :: rest)
    (hr : e.rst = false) (hv : e.cmdValid = true) (hd : decode s.wordPath (portWord e) = .reserved op) :
    step s = .next (raiseErr { s with inputs := rest }) := by
  simp [step_cons hs, clockEdge, accepts, acceptWord, hr, hv, hd]

/-- Settles O24: without the word path R86 makes both opcodes reserved. -/
theorem wordOpcodesAreReservedWithoutTheWordPath : Obligations.WordOpcodesAreReservedWithoutTheWordPath := by
  intro s e rest hs hr hv hw hop
  have hd : decode s.wordPath (portWord e) = .reserved e.cmdOp := by
    refine decode_eq_reserved_iff.mpr ⟨(opcodeOf_commandWord _ _).symm, ?_, by simp [hw]⟩
    obtain h | h := hop <;> simp [h]
  exact step_of_reserved hs hr hv hd

/-- The edge at which the host presents a word accepts it (R82). -/
theorem clockEdge_edgeOfWord (w : CommandWord) (s : State) : clockEdge (edgeOfWord w) s = acceptWord w s := by
  rw [clockEdge, portWord_edgeOfWord]
  rfl

/-- Settles O13: clearing the ignored bits leaves the decoding as it is, and an edge sees its word decoded only. -/
theorem ignoredBitsHaveNoEffect : Obligations.IgnoredBitsHaveNoEffect := by
  have hdec (wordPath : Bool) (w w' : CommandWord) (h : clearIgnored w = clearIgnored w') :
      decode wordPath w = decode wordPath w' := by
    rw [← decode_clearIgnored, h, decode_clearIgnored]
  refine ⟨hdec, fun s w w' rest h => ?_, clearIgnored_encode⟩
  rw [step_cons rfl, step_cons rfl, clockEdge_edgeOfWord, clockEdge_edgeOfWord, acceptWord, acceptWord,
    hdec _ w w' h]

end Sys2Proof.Machine
end

section
/-! WORDBE in both settings of WORD_PATH (30_encoding.md R86, 41_crc_datapath.md R114). -/

namespace Sys2Proof.Machine

/-- WORDBE where the instance has it: one word step of ACC (R114). -/
theorem exec_wordbe {s : State} (hs : s.resetSeen = true) (hw : s.wordPath = true) (v : Word) :
    exec (.wordbe v) s = .next (setAcc s (wordStepBE s.acc v)) := by
  rw [exec, execWordbe, if_pos hw, readAcc_of_reset hs]

/-- WORDBE where the instance lacks it (log entry 5). -/
theorem exec_wordbe_without_wordPath {s : State} (hw : s.wordPath = false) (v : Word) :
    exec (.wordbe v) s = .next (raiseErr s) := by
  simp [exec, execWordbe, hw]

/-- Settles O20: in each setting of WORD_PATH, what opcode 21 decodes to and what WORDBE does. -/
theorem wordbeFoldsThroughTablesFourToSeven : Obligations.WordbeFoldsThroughTablesFourToSeven := by
  intro s v hs
  have hd : decode s.wordPath (commandWord 0x21#8 v) =
      if s.wordPath then .command (.wordbe v) else .reserved 0x21#8 := by
    rw [decode_of_opcode_wordbe _ (opcodeOf_commandWord _ _), argOf_commandWord]
  refine ⟨fun hw => ⟨by rw [hd, if_pos hw], exec_wordbe hs hw v⟩, fun hw => ⟨?_, ?_⟩⟩
  · rw [hd, if_neg (by simp [hw])]
  · exact exec_wordbe_without_wordPath hw v

end Sys2Proof.Machine
end

section
/-! The assembler (30_encoding.md R91, R92): operands in range, the encoded TREAD, and the two checksum
pseudo-instructions as the host's sequences. -/

namespace Sys2Proof.Machine

/-- A line whose operands are in range is its expansion (R91, R92). -/
theorem assembleLine_of_wellFormed {l : AsmLine} (h : l.wellFormed = true) : assembleLine l = expand l := by
  rw [assembleLine, if_pos h]

/-- The assembler gives a line's expansion where a condition equivalent to its range check holds (R91). -/
theorem assembleLine_eq_ite {l : AsmLine} {P : Prop} [Decidable P] (h : l.wellFormed = true ↔ P) :
    assembleLine l = if P then expand l else none :=
  if_congr h rfl rfl

theorem imm32Ok_iff {v : Nat} : imm32Ok v = true ↔ v < 2 ^ 32 := decide_eq_true_iff

theorem imm8Ok_iff {v : Nat} : imm8Ok v = true ↔ v < 2 ^ 8 := decide_eq_true_iff

/-- A command word as a number (R80). -/
theorem toNat_commandWord (op : Byte) (arg : Word) :
    (commandWord op arg).toNat = op.toNat * 2 ^ 32 + arg.toNat := by
  rw [commandWord, BitVec.toNat_append, ← Nat.shiftLeft_add_eq_or_of_lt arg.isLt, Nat.shiftLeft_eq]

/-- The operand of format T as a number, `(k << 8) | n` (R83, R91). -/
theorem toNat_treadArg (k : BitVec 3) (n : Byte) : (Instr.tread k n).arg.toNat = k.toNat * 256 + n.toNat := by
  have h : (Instr.tread k n).arg.toNat = (0#21 ++ k).toNat <<< 8 ||| n.toNat := BitVec.toNat_append _ _
  rw [h, ← Nat.shiftLeft_add_eq_or_of_lt n.isLt, Nat.shiftLeft_eq, BitVec.toNat_append]
  simp

/-- Settles O57: each mnemonic's range check, and the number of a TREAD's word. -/
theorem assemblerEncodesOperandsInRange : Obligations.AssemblerEncodesOperandsInRange := by
  intro v k n
  have htread : (AsmLine.tread k n).wellFormed = true ↔ k < 8 ∧ n < 256 := by
    simp [AsmLine.wellFormed, imm8Ok_iff]
  refine ⟨rfl, by decide, assembleLine_eq_ite imm32Ok_iff, assembleLine_eq_ite imm8Ok_iff,
    assembleLine_eq_ite imm32Ok_iff, assembleLine_eq_ite imm32Ok_iff, assembleLine_eq_ite htread, fun hk hn => ?_⟩
  rw [encode, toNat_commandWord, toNat_treadArg, BitVec.toNat_ofNat, BitVec.toNat_ofNat,
    Nat.mod_eq_of_lt hk, Nat.mod_eq_of_lt hn, Instr.opcode, ← Nat.add_assoc]
  rfl

/-! ### The sequences over a buffer -/

/-- The byte-wise sequence reads the buffer once, in order (R139). -/
theorem bytewisePlan_reads (p : Word) (base len : Nat) :
    (bytewisePlan p base len).flatMap readAddresses = List.range' base len := by
  rw [bytewisePlan, List.flatMap_cons, issueBytes_reads]
  rfl

/-- The accelerated sequence reads the buffer once, in order: its four parts follow one another and together are as
long as the buffer (R139). -/
theorem acceleratedPlan_reads (p : Word) (base len : Nat) (order : ByteOrder) :
    (acceleratedPlan p base len order).flatMap readAddresses = List.range' base len := by
  have hlead : leadCount base len ≤ len := leadCount_le base len
  simp only [acceleratedPlan, List.flatMap_cons, List.flatMap_append, issueBytes_reads, issueWords_reads,
    issueChunks_reads, readAddresses, List.nil_append, List.range'_append_1, Nat.add_assoc]
  congr 1
  omega

/-- A plan whose reads find as many values as it makes issues its commands (log entry 8). -/
theorem exists_issue (plan : List HostOp) (values : List Byte)
    (h : values.length = (plan.flatMap readAddresses).length) : ∃ is, issue plan values = some is := by
  induction plan generalizing values with
  | nil => exact ⟨[], by rw [List.length_eq_zero_iff.mp h]; rfl⟩
  | cons op plan ih =>
    rw [List.flatMap_cons, List.length_append] at h
    cases op with
    | issueInit p =>
      obtain ⟨is, his⟩ := ih values (h.trans (Nat.zero_add _))
      exact ⟨.init p :: is, by rw [issue, his]; rfl⟩
    | issueByte a =>
      simp only [readAddresses, List.length_cons, List.length_nil] at h
      match values with
      | [] => exact absurd h (by rw [List.length_nil]; omega)
      | b :: bs =>
        obtain ⟨is, his⟩ := ih bs (by rw [List.length_cons] at h; omega)
        exact ⟨.byte b :: is, by rw [issue, his]; rfl⟩
    | issueWord order a =>
      simp only [readAddresses, List.length_cons, List.length_nil] at h
      match values with
      | [] | [_] | [_, _] | [_, _, _] => simp only [List.length_cons, List.length_nil] at h; omega
      | b0 :: b1 :: b2 :: b3 :: bs =>
        obtain ⟨is, his⟩ := ih bs (by simp only [List.length_cons] at h; omega)
        exact ⟨wordCommand order b0 b1 b2 b3 :: is, by rw [issue, his]; rfl⟩

/-- A plan that reads a buffer once, in order, issues its commands from the buffer's own bytes (R139). -/
theorem issueOver_of_reads {m : Buffer} {plan : List HostOp}
    (h : plan.flatMap readAddresses = List.range' m.base m.bytes.length) :
    issueOver m plan = issue plan m.bytes := by
  rw [issueOver, h, memReads_all]
  rfl

/-- The accelerated sequence exists over every buffer (R136). -/
theorem exists_acceleratedCommands (p : Word) (m : Buffer) (order : ByteOrder) :
    ∃ is, acceleratedCommands p m order = some is := by
  have hreads := acceleratedPlan_reads p m.base m.bytes.length order
  rw [acceleratedCommands, issueOver_of_reads hreads]
  exact exists_issue _ _ (by rw [hreads, List.length_range'])

theorem issueBytes_succ (a n : Nat) : issueBytes a (n + 1) = .issueByte a :: issueBytes (a + 1) n := by
  simp [issueBytes, List.range_succ_eq_map, Nat.add_comm, Nat.add_left_comm]

/-- Byte issues are one BYTE for each value read (R135). -/
theorem issue_issueBytes (a : Nat) (values : List Byte) :
    issue (issueBytes a values.length) values = some (values.map .byte) := by
  induction values generalizing a with
  | nil => rfl
  | cons b bs ih =>
    rw [List.length_cons, issueBytes_succ, issue, ih]
    rfl

/-- The byte-wise sequence is INIT of the seed and a BYTE for each byte of the buffer (R135). -/
theorem bytewiseCommands_eq (p : Word) (m : Buffer) :
    bytewiseCommands p m = some (.init p :: m.bytes.map .byte) := by
  rw [bytewiseCommands, issueOver_of_reads (bytewisePlan_reads p m.base m.bytes.length), bytewisePlan, issue,
    issue_issueBytes]
  rfl

/-- Settles O58: operands in range pass the check, and each expansion is the one R92 writes. -/
theorem pseudoInstructionsAreTheirExpansions : Obligations.PseudoInstructionsAreTheirExpansions := by
  intro p base bs order hp hbs
  have hp32 : imm32Ok p = true := imm32Ok_iff.mpr hp
  have hall : bs.all imm8Ok = true := List.all_eq_true.mpr fun b hb => imm8Ok_iff.mpr (hbs b hb)
  have hbytes : assembleLine (.bytes bs) = some (bs.map fun b => .byte (BitVec.ofNat 8 b)) :=
    assembleLine_of_wellFormed (l := .bytes bs) hall
  have hresume : (AsmLine.resume p).wellFormed = true := hp32
  have hinit : (AsmLine.init p).wellFormed = true := hp32
  have hcrc32 : (AsmLine.crc32 p bs).wellFormed = true := Bool.and_eq_true_iff.mpr ⟨hp32, hall⟩
  have hcrc32w : (AsmLine.crc32w p bs base order).wellFormed = true := Bool.and_eq_true_iff.mpr ⟨hp32, hall⟩
  refine ⟨hbytes, fun hascii => ?_, ?_, ?_, ?_⟩
  · have hstr : (AsmLine.str bs).wellFormed = true :=
      List.all_eq_true.mpr fun b hb => decide_eq_true (hascii b hb)
    exact (assembleLine_of_wellFormed hstr).trans hbytes.symm
  · exact (assembleLine_of_wellFormed hresume).trans (assembleLine_of_wellFormed hinit).symm
  · rw [assembleLine_of_wellFormed hcrc32, expand, bytewiseCommands_eq, List.map_map]
    rfl
  · obtain ⟨is, his⟩ := exists_acceleratedCommands (BitVec.ofNat 32 p) ⟨base, bs.map (BitVec.ofNat 8)⟩ order
    exact ⟨is, (assembleLine_of_wellFormed hcrc32w).trans his, his⟩

end Sys2Proof.Machine
end

section
/-! The control commands NOP and INIT (40_control.md R100, R101). -/

namespace Sys2Proof.Machine

/-- NOP completes in every state and changes nothing (R100). -/
theorem exec_nop (s : State) : exec .nop s = .next s := rfl

/-- INIT completes in every state with the complemented seed in ACC (R101). -/
theorem exec_init (v : Word) (s : State) : exec (.init v) s = .next (setAcc s (complement v)) := rfl

/-- Settles O15: the edge decodes to NOP whatever its operand is, and both edges leave the state with the edge off
the list. -/
theorem nopKeepsAllState : Obligations.NopKeepsAllState := by
  refine ⟨exec_nop, fun s e rest hs hr hv hop => ?_⟩
  have hd : decode s.wordPath (portWord e) = .command .nop :=
    decode_of_opcode_nop _ ((opcodeOf_commandWord _ _).trans hop)
  have hnop : step s = .next { s with inputs := rest } :=
    (stepRunsTheDecodedCommand s e rest .nop hs hr hv hd).trans (exec_nop _)
  have hidle : step { s with inputs := { e with cmdValid := false } :: rest } = .next { s with inputs := rest } := by
    rw [edgeWithoutCommandKeepsRegisters _ _ rest rfl (.inl rfl)]
    simp [hr]
  exact ⟨hnop, hnop.trans hidle.symm⟩

/-- Settles O16: opcode 01 decodes to INIT of the whole operand field, and the complement is XOR with all ones. -/
theorem initLoadsTheComplementedSeed : Obligations.InitLoadsTheComplementedSeed := by
  refine fun s v => ⟨?_, exec_init v s⟩
  rw [decode_of_opcode_init _ (opcodeOf_commandWord _ _), argOf_commandWord]

end Sys2Proof.Machine
end

section
/-! After reset the engine never stops (41_crc_datapath.md R118, 60_exceptions.md R140). -/

namespace Sys2Proof.Machine

/-- No edge undoes a reset: the registers hold defined values from then on (R183). -/
theorem step_next_keeps_resetSeen {s t : State} (hs : s.resetSeen = true) (h : step s = .next t) :
    t.resetSeen = true := by
  obtain rfl | ⟨-, rfl⟩ | ⟨-, _, -, -, _, rfl⟩ | ⟨-, _, _, -, rfl⟩ | ⟨-, -, _, -, rfl⟩ := step_next_writes h
  · exact hs
  · rfl
  · exact hs
  · exact hs
  · exact hs

/-- After a reset every edge completes: only a command could stop it, and each command completes. -/
theorem step_completes {s : State} (hs : s.resetSeen = true) : ∃ t, step s = .next t := by
  obtain ⟨-, he⟩ | ⟨-, -, he⟩ | ⟨-, -, i, -, he⟩ | ⟨-, -, _, -, he⟩ := clockEdge_cases (nextEdge s) (dropEdge s)
  · exact ⟨_, he⟩
  · exact ⟨_, he⟩
  · obtain ⟨t, ht⟩ := exec_completes (s := dropEdge s) hs i
    exact ⟨t, he.trans ht⟩
  · exact ⟨_, he⟩

/-- Settles O48, by induction on the number of edges: each completes and keeps what the next one needs. -/
theorem engineNeverStopsAfterReset : Obligations.EngineNeverStopsAfterReset := by
  intro s n hs
  induction n generalizing s with
  | zero => exact ⟨s, run_zero s⟩
  | succ n ih =>
    obtain ⟨t, ht⟩ := step_completes hs
    obtain ⟨u, hu⟩ := ih t (step_next_keeps_resetSeen hs ht)
    exact ⟨u, (run_succ_of_next n ht).trans hu⟩

end Sys2Proof.Machine
end

section
/-! The word steps as byte steps (41_crc_datapath.md R111, R116, R117). Four fold-forward steps of `ACC ^ v` shift out
the four bytes of `v`, one byte step each; since the fold-forward step is linear, they also are the four lookups. -/

namespace Sys2Proof.Machine

/-! ### The fold-forward step is linear -/

/-- Iterating a map that distributes over XOR gives one that does. -/
theorem iterate_xor {f : Word → Word} (hf : ∀ a b, f (a ^^^ b) = f a ^^^ f b) (n : Nat) (a b : Word) :
    f^[n] (a ^^^ b) = f^[n] a ^^^ f^[n] b := by
  induction n generalizing a b with
  | zero => rfl
  | succ n ih => rw [Function.iterate_succ_apply, hf, ih]; rfl

/-- A pass of the generation loop is linear: the polynomial cancels where both words have bit 0 (R45, R51). -/
theorem shiftReduce_xor (poly a b : Word) :
    shiftReduce poly (a ^^^ b) = shiftReduce poly a ^^^ shiftReduce poly b := by
  simp only [shiftReduce, BitVec.getLsbD_xor, BitVec.ushiftRight_xor_distrib]
  have hcancel (x y : Word) : (poly ^^^ x) ^^^ (poly ^^^ y) = x ^^^ y := by
    calc (poly ^^^ x) ^^^ (poly ^^^ y) = (poly ^^^ poly) ^^^ (x ^^^ y) := by ac_rfl
      _ = x ^^^ y := by rw [BitVec.xor_self, BitVec.zero_xor]
  cases a.getLsbD 0 <;> cases b.getLsbD 0
  · rfl
  · show poly ^^^ (a >>> 1 ^^^ b >>> 1) = a >>> 1 ^^^ (poly ^^^ b >>> 1)
    ac_rfl
  · exact (BitVec.xor_assoc _ _ _).symm
  · exact (hcancel _ _).symm

/-- Table 0 is linear (R51). -/
theorem table0_xor (poly : Word) (a b : Byte) : table0 poly (a ^^^ b) = table0 poly a ^^^ table0 poly b := by
  rw [table0, zext32_xor, iterate_xor (shiftReduce_xor poly)]
  rfl

/-- The fold-forward step is linear (R47, R51). -/
theorem foldForward_xor (poly a b : Word) :
    foldForward poly (a ^^^ b) = foldForward poly a ^^^ foldForward poly b := by
  rw [foldForward, byteOf_xor, table0_xor, BitVec.ushiftRight_xor_distrib, foldForward, foldForward]
  ac_rfl

/-- Table `k` folds table 0 forward `k` times (R47). -/
theorem iterate_foldForward_table0 (poly : Word) (k : Nat) (n : Byte) :
    (foldForward poly)^[k] (table0 poly n) = tableLE poly k n := by
  induction k with
  | zero => rfl
  | succ k ih => rw [Function.iterate_succ_apply', ih, tableLE]

/-! ### What shifts out of a word -/

/-- A shift by one byte drops the lowest of four bytes (R11). -/
theorem concatBytes_ushiftRight_eight (b3 b2 b1 b0 : Byte) :
    concatBytes b3 b2 b1 b0 >>> 8 = concatBytes 0#8 b3 b2 b1 := by
  refine BitVec.eq_of_getLsbD_eq fun i hi => ?_
  rw [BitVec.getLsbD_ushiftRight, getLsbD_concatBytes, getLsbD_concatBytes]
  grind

/-- A fold-forward step looks up the lowest byte in table 0, and `n` more take that entry to table `n`. -/
theorem iterate_foldForward_concatBytes (poly : Word) (n : Nat) (b3 b2 b1 b0 : Byte) :
    (foldForward poly)^[n + 1] (concatBytes b3 b2 b1 b0) =
      tableLE poly n b0 ^^^ (foldForward poly)^[n] (concatBytes 0#8 b3 b2 b1) := by
  have hstep : foldForward poly (concatBytes b3 b2 b1 b0) = table0 poly b0 ^^^ concatBytes 0#8 b3 b2 b1 := by
    rw [foldForward, (byteOf_concatBytes b3 b2 b1 b0).1, concatBytes_ushiftRight_eight]
  rw [Function.iterate_succ_apply, hstep, iterate_xor (foldForward_xor poly), iterate_foldForward_table0]

/-- A fold-forward step of `ACC ^ w` is a byte step of ACC by the lowest byte of `w`, with the other bytes of `w` still
to come (R14, R47). -/
theorem foldForward_xor_concatBytes (c : Word) (b3 b2 b1 b0 : Byte) :
    foldForward Config.poly (c ^^^ concatBytes b3 b2 b1 b0) = step8 c b0 ^^^ concatBytes 0#8 b3 b2 b1 := by
  rw [foldForward, byteOf_xor, (byteOf_concatBytes b3 b2 b1 b0).1, BitVec.ushiftRight_xor_distrib,
    concatBytes_ushiftRight_eight, step8_eq, ← BitVec.xor_assoc]
  rfl

/-! ### Four steps at once -/

/-- The four lookups are four fold-forward steps (R47, R112). -/
theorem lookupLE_eq_iterate (c : Word) : lookupLE c = (foldForward Config.poly)^[4] c := by
  conv_rhs => rw [← concatBytes_byteOf c]
  have hzero : concatBytes 0#8 0#8 0#8 0#8 = 0#32 := rfl
  simp only [iterate_foldForward_concatBytes, Function.iterate_zero_apply, hzero, BitVec.xor_zero]
  rw [lookupLE, BitVec.xor_assoc, BitVec.xor_assoc]
  rfl

/-- Four fold-forward steps of `ACC ^ v` are the byte steps of ACC by the four bytes of `v` (R14, R47). -/
theorem iterate_foldForward_xor (c v : Word) :
    (foldForward Config.poly)^[4] (c ^^^ v) = fold c (leBytes v) := by
  conv_lhs => rw [← concatBytes_byteOf v]
  simp only [Function.iterate_succ_apply, foldForward_xor_concatBytes]
  exact BitVec.xor_zero

/-- WORDLE's step is the four byte steps of its stream bytes (R111, R112). -/
theorem wordStepLE_eq_fold (acc v : Word) : wordStepLE acc v = fold acc (leBytes v) := by
  rw [wordStepLE, lookupLE_eq_iterate, iterate_foldForward_xor]

/-- The big-endian lookups of a swapped word are the swapped little-endian ones (R49, R114). -/
theorem lookupBE_bswap32 (c : Word) : lookupBE (bswap32 c) = bswap32 (lookupLE c) := by
  have h4 (n : Byte) : rom 4 n = bswap32 (rom 0 n) := rom_add_four (k := 0) (by decide) n
  have h5 (n : Byte) : rom 5 n = bswap32 (rom 1 n) := rom_add_four (k := 1) (by decide) n
  have h6 (n : Byte) : rom 6 n = bswap32 (rom 2 n) := rom_add_four (k := 2) (by decide) n
  have h7 (n : Byte) : rom 7 n = bswap32 (rom 3 n) := rom_add_four (k := 3) (by decide) n
  simp only [lookupBE, lookupLE, h4, h5, h6, h7, bswap32_xor]
  rw [byteOf_bswap32 c 0 (by decide), byteOf_bswap32 c 1 (by decide), byteOf_bswap32 c 2 (by decide),
    byteOf_bswap32 c 3 (by decide)]
  ac_rfl

/-- WORDBE's step is WORDLE's step by the swapped operand (R114). -/
theorem wordStepBE_eq_wordStepLE (acc v : Word) : wordStepBE acc v = wordStepLE acc (bswap32 v) := by
  have hv : bswap32 acc ^^^ v = bswap32 (acc ^^^ bswap32 v) := by rw [bswap32_xor, bswap32_bswap32]
  rw [wordStepBE, hv, lookupBE_bswap32, bswap32_bswap32, wordStepLE]

/-- Swapping a word turns its stream order around (R12, R116). -/
theorem leBytes_bswap32 (v : Word) : leBytes (bswap32 v) = beBytes v := leBytes_packLE _ _ _ _

/-- WORDBE's step is the four byte steps of its stream bytes (R111, R114). -/
theorem wordStepBE_eq_fold (acc v : Word) : wordStepBE acc v = fold acc (beBytes v) := by
  rw [wordStepBE_eq_wordStepLE, wordStepLE_eq_fold, leBytes_bswap32]

end Sys2Proof.Machine
end

section
/-! The data commands after reset (41_crc_datapath.md R110 to R116): what each does, and what a run of them does. -/

namespace Sys2Proof.Machine

/-! ### BYTE and WORDLE -/

/-- BYTE after a reset: one byte step of ACC (R110). -/
theorem exec_byte {s : State} (hs : s.resetSeen = true) (b : Byte) :
    exec (.byte b) s = .next (setAcc s (step8 s.acc b)) := by
  rw [exec, execByte, readAcc_of_reset hs]

/-- WORDLE where the word path is built in: one word step of ACC (R112). -/
theorem exec_wordle {s : State} (hs : s.resetSeen = true) (hw : s.wordPath = true) (v : Word) :
    exec (.wordle v) s = .next (setAcc s (wordStepLE s.acc v)) := by
  rw [exec, execWordle, if_pos hw, readAcc_of_reset hs]

/-- WORDLE without the word path (log entry 5). -/
theorem exec_wordle_without_wordPath {s : State} (hw : s.wordPath = false) (v : Word) :
    exec (.wordle v) s = .next (raiseErr s) := by
  simp [exec, execWordle, hw]

/-- Settles O18: opcode 10 decodes to BYTE of the operand's low byte, and STEP8 is R110's lookup. -/
theorem byteFoldsOneByte : Obligations.ByteFoldsOneByte := by
  intro s arg b hs
  obtain ⟨-, -, hbyte, -⟩ := decoderReadsEveryOpcode s.wordPath arg
  refine ⟨hbyte, ?_⟩
  rw [exec_byte hs, step8_eq]
  rfl

/-- Settles O19: in each setting of WORD_PATH, what opcode 20 decodes to and what WORDLE does. -/
theorem wordleFoldsThroughTablesThreeToZero : Obligations.WordleFoldsThroughTablesThreeToZero := by
  intro s v hs
  obtain ⟨-, -, -, hd, -⟩ := decoderReadsEveryOpcode s.wordPath v
  exact ⟨fun hw => ⟨by rw [hd, if_pos hw], exec_wordle hs hw v⟩,
    fun hw => ⟨by rw [hd, if_neg (by simp [hw])], exec_wordle_without_wordPath hw v⟩⟩

/-! ### Runs of data commands -/

/-- The commands that carry stream bytes (R35, R116). -/
def IsDataCommand (i : Instr) : Prop :=
  (∃ b, i = .byte b) ∨ (∃ v, i = .wordle v) ∨ ∃ v, i = .wordbe v

/-- A data command after a reset folds the bytes it carries into ACC, whatever its width (R111, R116). -/
theorem exec_dataCommand {s : State} {i : Instr} (hs : s.resetSeen = true) (hi : IsDataCommand i)
    (hw : i.wellFormed s.wordPath = true) : exec i s = .next (setAcc s (fold s.acc (streamBytes i))) := by
  obtain ⟨b, rfl⟩ | ⟨v, rfl⟩ | ⟨v, rfl⟩ := hi
  · exact exec_byte hs b
  · rw [exec_wordle hs hw, wordStepLE_eq_fold, streamBytes]
  · rw [exec_wordbe hs hw, wordStepBE_eq_fold, streamBytes]

/-- Folding a concatenation folds its parts in order (R119). -/
theorem fold_append (c : Word) (bs cs : List Byte) : fold c (bs ++ cs) = fold (fold c bs) cs :=
  List.foldl_append

/-- A run of data commands folds the bytes they carry into ACC, in order, and changes nothing else (R74). -/
theorem run_dataCommands {rest : List Edge} (is : List Instr) (s : State) (hs : s.resetSeen = true)
    (his : ∀ i ∈ is, IsDataCommand i ∧ i.wellFormed s.wordPath = true)
    (h : s.inputs = is.map edgeOf ++ rest) :
    Host.Core.run core is.length s =
      .next { s with acc := fold s.acc (is.flatMap streamBytes), inputs := rest } := by
  induction is generalizing s with
  | nil =>
    subst h
    rfl
  | cons i is ih =>
    obtain ⟨hi, hw⟩ := his i List.mem_cons_self
    have hstep := (step_edgeOf hw h).trans (exec_dataCommand hs hi hw)
    rw [List.length_cons, run_succ_of_next _ hstep, List.flatMap_cons, fold_append]
    exact ih _ hs (fun j hj => his j (List.mem_cons_of_mem _ hj)) rfl

/-- Data commands presented to an idle engine leave the fold of the bytes they carry. -/
theorem run_present_dataCommands {is : List Instr} {s : State} (hs : s.resetSeen = true) (hin : s.inputs = [])
    (his : ∀ i ∈ is, IsDataCommand i ∧ i.wellFormed s.wordPath = true) :
    Host.Core.run core is.length (present s is) = .next { s with acc := fold s.acc (is.flatMap streamBytes) } := by
  have hpresent : (present s is).inputs = is.map edgeOf ++ [] := by simp [hin]
  rw [run_dataCommands is (present s is) hs his hpresent, ← hin]
  rfl

/-- BYTE commands carry the bytes they are made from (R35). -/
theorem flatMap_streamBytes_byte (bs : List Byte) : (bs.map .byte).flatMap streamBytes = bs := by
  simp [List.flatMap_map, streamBytes]

/-- Settles O40: both runs are runs of data commands, and they carry the same four bytes. -/
theorem wordCommandRunsAsFourByteCommands : Obligations.WordCommandRunsAsFourByteCommands := by
  intro s i hs hw hin hi
  have hword : ∀ j ∈ [i], IsDataCommand j ∧ j.wellFormed s.wordPath = true := by
    intro j hj
    obtain rfl := List.mem_singleton.mp hj
    refine ⟨.inr hi, ?_⟩
    obtain ⟨v, rfl⟩ | ⟨v, rfl⟩ := hi <;> exact hw
  have hbytes : ∀ j ∈ (streamBytes i).map .byte, IsDataCommand j ∧ j.wellFormed s.wordPath = true := by
    intro j hj
    obtain ⟨b, -, rfl⟩ := List.mem_map.mp hj
    exact ⟨.inl ⟨b, rfl⟩, rfl⟩
  have hlen : ((streamBytes i).map Instr.byte).length = 4 := by
    obtain ⟨v, rfl⟩ | ⟨v, rfl⟩ := hi <;> rfl
  have hrun1 := run_present_dataCommands hs hin hword
  have hrun4 := run_present_dataCommands hs hin hbytes
  rw [flatMap_streamBytes_byte, hlen] at hrun4
  rw [List.flatMap_singleton] at hrun1
  exact ⟨_, hrun1, hrun4⟩

end Sys2Proof.Machine
end

section
/-! The table read command TREAD (42_table_read.md R130): its decoding, its effect and frame, and its ROM address. -/

namespace Sys2Proof.Machine

/-- Settles O22: opcode 30 decodes to TREAD of its two operand fields, TREAD sets TBL_OUT alone, and `256*k + n` is
the ROM address of entry `n` of table `k`. -/
theorem treadLoadsTheRomEntry : Obligations.TreadLoadsTheRomEntry := by
  intro s arg k n
  obtain ⟨-, -, -, -, -, htread, -⟩ := decoderReadsEveryOpcode s.wordPath arg
  have haddr : romAt (BitVec.ofNat 11 (256 * k.toNat + n.toNat)) = rom k n := by
    rw [← romAddress_eq_ofNat, romAt_romAddress]
  exact ⟨htread, exec_tread k n s, haddr⟩

end Sys2Proof.Machine
end

section
/-! The checksum sequences (43_sequences.md R135 to R138). What a plan's commands carry is read off its issue lines;
INIT and commands that carry a buffer's bytes leave its CRC; and the accelerated plan is one run of words between two
runs of bytes. -/

namespace Sys2Proof.Machine

/-! ### The commands of a plan -/

/-- The word a host assembles carries the four bytes it read, in the order of the reads (R72, R116). -/
theorem streamBytes_wordCommand (order : ByteOrder) (b0 b1 b2 b3 : Byte) :
    streamBytes (wordCommand order b0 b1 b2 b3) = [b0, b1, b2, b3] := by
  obtain ⟨-, -, hle, hbe⟩ := wordsPackStreamBytes b0 b1 b2 b3
  cases order with
  | le => exact hle
  | be => exact hbe

/-- The word a host assembles is a data command in either byte order (R136). -/
theorem isDataCommand_wordCommand (order : ByteOrder) (b0 b1 b2 b3 : Byte) :
    IsDataCommand (wordCommand order b0 b1 b2 b3) := by
  cases order with
  | le => exact .inr (.inl ⟨_, rfl⟩)
  | be => exact .inr (.inr ⟨_, rfl⟩)

/-- An issue line issues one command, which carries the values the line's reads returned, and which is a data command
unless the line issues INIT. -/
theorem issue_cons_eq_some {op : HostOp} {plan : List HostOp} {values : List Byte} {is : List Instr}
    (h : issue (op :: plan) values = some is) :
    ∃ i js rest, is = i :: js ∧ values = streamBytes i ++ rest ∧ issue plan rest = some js ∧
      ((∃ p, op = .issueInit p) ∨ IsDataCommand i) := by
  cases op with
  | issueInit p =>
    rw [issue] at h
    obtain ⟨js, hjs, rfl⟩ := Option.map_eq_some_iff.mp h
    exact ⟨_, js, values, rfl, rfl, hjs, .inl ⟨p, rfl⟩⟩
  | issueByte a =>
    match values with
    | [] => cases h
    | b :: rest =>
      rw [issue] at h
      obtain ⟨js, hjs, rfl⟩ := Option.map_eq_some_iff.mp h
      exact ⟨_, js, rest, rfl, rfl, hjs, .inr (.inl ⟨b, rfl⟩)⟩
  | issueWord order a =>
    match values with
    | [] | [_] | [_, _] | [_, _, _] => cases h
    | b0 :: b1 :: b2 :: b3 :: rest =>
      rw [issue] at h
      obtain ⟨js, hjs, rfl⟩ := Option.map_eq_some_iff.mp h
      exact ⟨_, js, rest, rfl, by rw [streamBytes_wordCommand]; rfl, hjs,
        .inr (isDataCommand_wordCommand order b0 b1 b2 b3)⟩

/-- A plan issues one command for each line, and they carry the values read, in order (log entry 8). -/
theorem length_and_streamBytes_of_issue {plan : List HostOp} {values : List Byte} {is : List Instr}
    (h : issue plan values = some is) : is.length = plan.length ∧ is.flatMap streamBytes = values := by
  induction plan generalizing values is with
  | nil =>
    cases values with
    | nil => cases h; exact ⟨rfl, rfl⟩
    | cons b bs => cases h
  | cons op plan ih =>
    obtain ⟨i, js, rest, rfl, rfl, hjs, -⟩ := issue_cons_eq_some h
    obtain ⟨hlen, hbytes⟩ := ih hjs
    exact ⟨by rw [List.length_cons, List.length_cons, hlen], by rw [List.flatMap_cons, hbytes]⟩

/-- A plan without an INIT line issues data commands only. -/
theorem isDataCommand_of_issue {plan : List HostOp} {values : List Byte} {is : List Instr}
    (h : issue plan values = some is) (hplan : ∀ p, .issueInit p ∉ plan) : ∀ i ∈ is, IsDataCommand i := by
  induction plan generalizing values is with
  | nil =>
    cases values with
    | nil => cases h; exact fun _ hi => absurd hi List.not_mem_nil
    | cons b bs => cases h
  | cons op plan ih =>
    obtain ⟨i, js, rest, rfl, -, hjs, ⟨p, rfl⟩ | hi⟩ := issue_cons_eq_some h
    · exact absurd List.mem_cons_self (hplan p)
    · exact List.forall_mem_cons.mpr ⟨hi, ih hjs fun p hp => hplan p (List.mem_cons_of_mem _ hp)⟩

/-! ### INIT and the data -/

/-- The form of both sequences: INIT of the seed, then data commands of the instance that carry the bytes. -/
def IsSequence (wordPath : Bool) (p : Word) (bytes : List Byte) (is : List Instr) : Prop :=
  ∃ ds, is = .init p :: ds ∧ (∀ d ∈ ds, IsDataCommand d ∧ d.wellFormed wordPath = true) ∧
    ds.flatMap streamBytes = bytes

/-- INIT and data commands leave the fold of their bytes from the complemented seed, whatever ACC held (R35, R101). -/
theorem run_present_sequence {s : State} {p : Word} {bytes : List Byte} {is : List Instr}
    (hs : s.resetSeen = true) (hin : s.inputs = []) (his : IsSequence s.wordPath p bytes is) :
    Host.Core.run core is.length (present s is) = .next { s with acc := fold (complement p) bytes } := by
  obtain ⟨ds, rfl, hds, rfl⟩ := his
  have hinputs : (present s (.init p :: ds)).inputs = edgeOf (.init p) :: ds.map edgeOf := by simp [hin]
  have hinit := (step_edgeOf rfl hinputs).trans (exec_init p _)
  rw [List.length_cons, run_succ_of_next _ hinit, hin]
  exact run_dataCommands ds _ hs hds (by simp)

/-- `crc_out` of a folded accumulator is the CRC (R14, R29). -/
theorem crcOut_fold (s : State) (p : Word) (bytes : List Byte) :
    crcOut { s with acc := fold (complement p) bytes } = crc32 p bytes := rfl

/-- The byte-wise sequence has that form in every instance (R135). -/
theorem bytewiseCommands_isSequence {p : Word} {m : Buffer} {is : List Instr} (wordPath : Bool)
    (h : bytewiseCommands p m = some is) : IsSequence wordPath p m.bytes is := by
  rw [bytewiseCommands_eq, Option.some.injEq] at h
  refine ⟨_, h.symm, fun d hd => ?_, flatMap_streamBytes_byte m.bytes⟩
  obtain ⟨b, -, rfl⟩ := List.mem_map.mp hd
  exact ⟨.inl ⟨b, rfl⟩, rfl⟩

/-- Settles O50: the byte-wise sequence is INIT and one BYTE for each byte, and its run leaves their CRC. -/
theorem bytewiseSequenceComputesTheCrc : Obligations.BytewiseSequenceComputesTheCrc := by
  intro s p m hs hin
  have his := bytewiseCommands_eq p m
  exact ⟨_, _, his, by simp, run_present_sequence hs hin (bytewiseCommands_isSequence _ his), crcOut_fold _ _ _⟩

/-! ### The shape of the accelerated plan -/

/-- Word issues from two adjoining ranges are the word issues of the whole range. -/
theorem issueWords_append (order : ByteOrder) (a m n : Nat) :
    issueWords order a m ++ issueWords order (a + 4 * m) n = issueWords order a (m + n) := by
  simp [issueWords, List.range_add, Nat.mul_add, Nat.add_assoc, Function.comp_def]

/-- The 32-byte chunks are an unrolling: they issue the words that the 4-byte loop would (R136). -/
theorem issueChunks_eq_issueWords (order : ByteOrder) (a n : Nat) :
    issueChunks order a n = issueWords order a (8 * n) := by
  induction n with
  | zero => rfl
  | succ n ih =>
    have hsucc : issueChunks order a (n + 1) = issueChunks order a n ++ issueWords order (a + 32 * n) 8 := by
      simp [issueChunks, List.range_succ]
    have haddr : a + 32 * n = a + 4 * (8 * n) := by omega
    rw [hsucc, ih, haddr, issueWords_append, Nat.mul_succ]

/-- The accelerated sequence is INIT, the leading bytes, the aligned words and the trailing bytes (R136, R137). -/
theorem acceleratedPlan_eq (p : Word) (base len : Nat) (order : ByteOrder) :
    acceleratedPlan p base len order = .issueInit p :: (issueBytes base (leadCount base len) ++
      issueWords order (base + leadCount base len) (wordCount base len) ++
      issueBytes (base + (leadCount base len + 4 * wordCount base len)) (tailCount base len)) := by
  have hlead : leadCount base len ≤ len := leadCount_le base len
  simp only [acceleratedPlan, wordCount, tailCount]
  generalize leadCount base len = i at hlead ⊢
  have haddr : base + (i + 32 * ((len - i) / 32)) = base + i + 4 * (8 * ((len - i) / 32)) := by omega
  have hwords : 8 * ((len - i) / 32) + (len - (i + 32 * ((len - i) / 32))) / 4 = (len - i) / 4 := by omega
  have hend : i + 32 * ((len - i) / 32) + 4 * ((len - (i + 32 * ((len - i) / 32))) / 4) =
      i + 4 * ((len - i) / 4) := by omega
  have htail : len - (i + 4 * ((len - i) / 4)) = (len - i) % 4 := by omega
  rw [issueChunks_eq_issueWords, hend, htail, haddr, List.append_assoc (issueBytes base i), issueWords_append, hwords]

@[simp] theorem length_issueBytes (a n : Nat) : (issueBytes a n).length = n := by simp [issueBytes]

@[simp] theorem length_issueWords (order : ByteOrder) (a n : Nat) : (issueWords order a n).length = n := by
  simp [issueWords]

theorem mem_issueBytes {op : HostOp} {a n : Nat} : op ∈ issueBytes a n ↔ ∃ j < n, op = .issueByte (a + j) := by
  simp [issueBytes, eq_comm]

theorem mem_issueWords {op : HostOp} {order : ByteOrder} {a n : Nat} :
    op ∈ issueWords order a n ↔ ∃ j < n, op = .issueWord order (a + 4 * j) := by
  simp [issueWords, eq_comm]

@[simp] theorem countP_isWordIssue_issueBytes (a n : Nat) : (issueBytes a n).countP isWordIssue = 0 := by
  simp [issueBytes, List.countP_map, isWordIssue, Function.comp_def]

@[simp] theorem countP_isByteIssue_issueBytes (a n : Nat) : (issueBytes a n).countP isByteIssue = n := by
  simp [issueBytes, List.countP_map, isByteIssue, Function.comp_def]

@[simp] theorem countP_isWordIssue_issueWords (order : ByteOrder) (a n : Nat) :
    (issueWords order a n).countP isWordIssue = n := by
  simp [issueWords, List.countP_map, isWordIssue, Function.comp_def]

@[simp] theorem countP_isByteIssue_issueWords (order : ByteOrder) (a n : Nat) :
    (issueWords order a n).countP isByteIssue = 0 := by
  simp [issueWords, List.countP_map, isByteIssue, Function.comp_def]

/-- Where a word is issued at all, the leading bytes reach a 4-byte boundary (R136). -/
theorem add_leadCount_mod_four {base len : Nat} (h : 0 < wordCount base len) :
    (base + leadCount base len) % 4 = 0 := by
  unfold wordCount leadCount at h
  unfold leadCount
  omega

/-- Settles O52: the counts are those of the plan's four parts, and the words go up by 4 from an aligned address. -/
theorem acceleratedSequenceCountsAndAlignment : Obligations.AcceleratedSequenceCountsAndAlignment := by
  intro p base len order
  rw [acceleratedPlan_eq]
  refine ⟨by simp [isWordIssue], by simp [isByteIssue], fun o a h => ?_⟩
  have hword : .issueWord o a ∈ issueWords order (base + leadCount base len) (wordCount base len) := by
    simpa [mem_issueBytes] using h
  obtain ⟨j, hj, heq⟩ := mem_issueWords.mp hword
  obtain ⟨rfl, rfl⟩ := HostOp.issueWord.inj heq
  have haligned := add_leadCount_mod_four (Nat.zero_lt_of_lt hj)
  exact ⟨by omega, rfl⟩

/-! ### The accelerated sequence -/

/-- The accelerated sequence issues as many commands as its plan has lines (R137). -/
theorem length_acceleratedCommands {p : Word} {m : Buffer} {order : ByteOrder} {is : List Instr}
    (h : acceleratedCommands p m order = some is) :
    is.length = 1 + leadCount m.base m.bytes.length + wordCount m.base m.bytes.length +
      tailCount m.base m.bytes.length := by
  rw [acceleratedCommands, issueOver_of_reads (acceleratedPlan_reads _ _ _ _)] at h
  rw [(length_and_streamBytes_of_issue h).1, acceleratedPlan_eq]
  simp only [List.length_cons, List.length_append, length_issueBytes, length_issueWords]
  omega

/-- Where the word path is built in, the instance has every command (R85, R86). -/
theorem wellFormed_true (i : Instr) : i.wellFormed true = true := by cases i <;> rfl

/-- The accelerated sequence is INIT and data commands that carry the buffer's bytes (R136). -/
theorem acceleratedCommands_isSequence {p : Word} {m : Buffer} {order : ByteOrder} {is : List Instr}
    (h : acceleratedCommands p m order = some is) : IsSequence true p m.bytes is := by
  rw [acceleratedCommands, issueOver_of_reads (acceleratedPlan_reads _ _ _ _), acceleratedPlan_eq, issue] at h
  obtain ⟨ds, hds, rfl⟩ := Option.map_eq_some_iff.mp h
  have hdata := isDataCommand_of_issue hds (by simp [mem_issueBytes, mem_issueWords])
  exact ⟨ds, rfl, fun d hd => ⟨hdata d hd, wellFormed_true d⟩, (length_and_streamBytes_of_issue hds).2⟩

/-- Settles O51: both sequences are INIT and data commands that carry the same bytes. -/
theorem acceleratedSequenceComputesTheSameCrc : Obligations.AcceleratedSequenceComputesTheSameCrc := by
  intro s p m order hs hw hin
  obtain ⟨is, his⟩ := exists_acceleratedCommands p m order
  obtain ⟨bs, u, hbs, -, hu, hcrc⟩ := bytewiseSequenceComputesTheCrc s p m hs hin
  have hrun := run_present_sequence hs hin (hw ▸ acceleratedCommands_isSequence his)
  exact ⟨is, _, bs, u, his, length_acceleratedCommands his, hrun, hbs, hu, hcrc.symm, crcOut_fold _ _ _⟩

/-! ### Chaining -/

/-- A CRC seeded with the CRC of what came before is the CRC of the whole (R119). -/
theorem crc32_append (p : Word) (bs cs : List Byte) : crc32 (crc32 p bs) cs = crc32 p (bs ++ cs) := by
  simp only [crc32, complement_complement, fold_append]

/-- Settles O55: each call is INIT and data commands, the first leaves the engine as the second needs it, and the two
CRCs chain. -/
theorem chainedSequencesComputeTheWholeCrc : Obligations.ChainedSequencesComputeTheWholeCrc := by
  intro s p A B order order' iA iB hs hw hin hA hB
  have hseqA : IsSequence s.wordPath p A.bytes iA :=
    hA.elim (bytewiseCommands_isSequence _) fun h => hw ▸ acceleratedCommands_isSequence h
  have hseqB : IsSequence s.wordPath (crc32 p A.bytes) B.bytes iB :=
    hB.elim (bytewiseCommands_isSequence _) fun h => hw ▸ acceleratedCommands_isSequence h
  have hrunA := run_present_sequence hs hin hseqA
  refine ⟨_, _, hrunA, crcOut_fold _ _ _, run_present_sequence hs hin hseqB, ?_⟩
  rw [crcOut_fold, crc32_append]

end Sys2Proof.Machine
end

section
/-! Exceptions (60_exceptions.md): a reserved opcode at an edge (R150), and edges of engines that share the table ROM
(R165). -/

namespace Sys2Proof.Machine

/-! ### A reserved opcode -/

/-- Settles O23: the two conditions on the opcode are the decoder's for a reserved word, and an edge that accepts one
sets ERR. -/
theorem reservedOpcodeOnlySetsErr : Obligations.ReservedOpcodeOnlySetsErr := by
  intro s e rest hs hr hv hop hword
  have hd : decode s.wordPath (portWord e) = .reserved e.cmdOp :=
    decode_eq_reserved_iff.mpr ⟨(opcodeOf_commandWord _ _).symm, hop, hword⟩
  exact step_of_reserved hs hr hv hd

/-! ### Engines on one ROM -/

/-- A number that no engine has names no edge. -/
theorem platformEdge_of_none {p : Platform} {i : Nat} (hs : p.engines[i]? = none) : platformEdge p i = .next p := by
  rw [platformEdge, hs]

/-- An edge of an engine whose own step completes puts the stepped engine in its place. -/
theorem platformEdge_of_step {p : Platform} {i : Nat} {s t : State} (hs : p.engines[i]? = some s)
    (ht : step s = .next t) : platformEdge p i = .next { engines := p.engines.set i t } := by
  simp [platformEdge, hs, ht]

/-- An edge of a platform completes where its number names no engine, or where that engine's own step completes. -/
theorem platformEdge_eq_next_iff {p q : Platform} {i : Nat} :
    platformEdge p i = .next q ↔
      (p.engines[i]? = none ∧ q = p) ∨
      ∃ s t, p.engines[i]? = some s ∧ step s = .next t ∧ q = { engines := p.engines.set i t } := by
  constructor
  · intro h
    cases hs : p.engines[i]? with
    | none =>
      rw [platformEdge_of_none hs] at h
      cases h
      exact .inl ⟨rfl, rfl⟩
    | some s =>
      cases ht : step s with
      | next t =>
        rw [platformEdge_of_step hs ht] at h
        cases h
        exact .inr ⟨s, t, rfl, ht, rfl⟩
      | fault r => simp [platformEdge, hs, ht] at h
      | refused r => simp [platformEdge, hs, ht] at h
  · rintro (⟨hs, rfl⟩ | ⟨s, t, hs, ht, rfl⟩)
    · exact platformEdge_of_none hs
    · exact platformEdge_of_step hs ht

/-- An edge of one engine leaves every other engine as it was, and their number (R165). -/
theorem platformEdge_frame {p q : Platform} {i : Nat} (h : platformEdge p i = .next q) :
    q.engines.length = p.engines.length ∧ ∀ j, j ≠ i → q.engines[j]? = p.engines[j]? := by
  obtain ⟨-, rfl⟩ | ⟨s, t, -, -, rfl⟩ := platformEdge_eq_next_iff.mp h
  · exact ⟨rfl, fun _ _ => rfl⟩
  · exact ⟨List.length_set, fun _ hj => List.getElem?_set_ne hj.symm⟩

/-- An edge changes its own engine as that engine's step does (R165). -/
theorem platformEdge_steps_engine {p q : Platform} {i : Nat} {s : State} (h : platformEdge p i = .next q)
    (hs : p.engines[i]? = some s) : ∃ t, step s = .next t ∧ q.engines[i]? = some t := by
  obtain ⟨hn, -⟩ | ⟨s', t, hs', ht, rfl⟩ := platformEdge_eq_next_iff.mp h
  · simp [hs] at hn
  · obtain rfl : s = s' := Option.some.inj (hs.symm.trans hs')
    obtain ⟨hi, -⟩ := List.getElem?_eq_some_iff.mp hs
    exact ⟨t, ht, List.getElem?_set_self hi⟩

/-- Edges of two engines give the same platform in either order (R165): each engine is the same at its edge whether the
other's came before or comes after, and writes to two places of the list commute. -/
theorem platformEdge_comm {p q r : Platform} {i j : Nat} (hij : i ≠ j) (hi : platformEdge p i = .next q)
    (hj : platformEdge q j = .next r) : ∃ q', platformEdge p j = .next q' ∧ platformEdge q' i = .next r := by
  have hpj : q.engines[j]? = p.engines[j]? := (platformEdge_frame hi).2 j hij.symm
  obtain ⟨hnj, rfl⟩ | ⟨s, t, hs, ht, rfl⟩ := platformEdge_eq_next_iff.mp hj
  · exact ⟨p, platformEdge_of_none (hpj.symm.trans hnj), hi⟩
  · refine ⟨_, platformEdge_of_step (hpj.symm.trans hs) ht, ?_⟩
    have hqi : (p.engines.set j t)[i]? = p.engines[i]? := List.getElem?_set_ne hij.symm
    obtain ⟨hni, rfl⟩ | ⟨u, v, hu, hv, rfl⟩ := platformEdge_eq_next_iff.mp hi
    · exact platformEdge_of_none (hqi.trans hni)
    · rw [platformEdge_of_step (hqi.trans hu) hv, List.set_comm _ _ hij]

/-- Settles O49: an edge of a platform is its engine's own step, written in that engine's place alone. -/
theorem enginesDoNotDisturbEachOther : Obligations.EnginesDoNotDisturbEachOther := by
  refine ⟨fun p q i h => ?_, fun p q r i j => platformEdge_comm⟩
  obtain ⟨hlen, hframe⟩ := platformEdge_frame h
  exact ⟨hlen, hframe, fun s => platformEdge_steps_engine h⟩

end Sys2Proof.Machine
end

section
/-! Reset and the order of commands (70_reset_and_hazards.md R180, R183, R184, R187): what a reset edge leaves, what
has no value before the first one, and why idle edges do not count. -/

namespace Sys2Proof.Machine

/-! ### Idle edges -/

/-- A command does not look at the edges that come after its own: a completed command completes with any others listed,
and leaves those in place (R185). -/
theorem exec_next_with_inputs {i : Instr} {s t : State} (h : exec i s = .next t) (es : List Edge) :
    exec i { s with inputs := es } = .next { t with inputs := es } := by
  obtain ⟨rfl, rfl⟩ | ⟨v, rfl, rfl⟩ | ⟨b, rfl, hs, rfl⟩ | ⟨v, rfl, hs, hw, rfl⟩ | ⟨v, rfl, hs, hw, rfl⟩ |
    ⟨k, n, rfl, rfl⟩ | ⟨hf, rfl⟩ := exec_next_cases h
  · exact exec_nop _
  · exact exec_init v _
  · exact exec_byte (s := { s with inputs := es }) hs b
  · exact exec_wordle (s := { s with inputs := es }) hs hw v
  · exact exec_wordbe (s := { s with inputs := es }) hs hw v
  · rfl
  · cases i with
    | nop | init | byte | tread => cases hf
    | wordle v => exact exec_wordle_without_wordPath (s := { s with inputs := es }) hf v
    | wordbe v => exact exec_wordbe_without_wordPath (s := { s with inputs := es }) hf v

/-- An edge does not look at the edges that come after it, either. -/
theorem clockEdge_next_with_inputs {e : Edge} {s t : State} (h : clockEdge e s = .next t) (es : List Edge) :
    clockEdge e { s with inputs := es } = .next { t with inputs := es } := by
  obtain ⟨hr, he⟩ | ⟨hr, hv, he⟩ | ⟨hr, hv, i, hd, he⟩ | ⟨hr, hv, op, hd, he⟩ := clockEdge_cases e s
  · rw [he] at h
    cases h
    exact if_pos hr
  · rw [he] at h
    cases h
    simp [clockEdge, accepts, hr, hv]
  · have hi : exec i { s with inputs := es } = .next { t with inputs := es } :=
      exec_next_with_inputs (he.symm.trans h) es
    simpa [clockEdge, accepts, acceptWord, hr, hv, hd] using hi
  · rw [he] at h
    cases h
    simp [clockEdge, accepts, acceptWord, hr, hv, hd, raiseErr]

/-- So a step that completes does so with any other edges behind its own. -/
theorem step_next_with_inputs {e : Edge} {es : List Edge} {s t : State}
    (h : step { s with inputs := e :: es } = .next t) (rest : List Edge) :
    step { s with inputs := e :: rest } = .next { t with inputs := rest } :=
  clockEdge_next_with_inputs (s := { s with inputs := es }) h rest

/-- Leaving out idle edges does not change the outcome of a run after reset (R89, R187). -/
theorem run_filter_idle (es : List Edge) (s : State) (hs : s.resetSeen = true) :
    Host.Core.run core (es.filter fun e => e.rst || e.cmdValid).length
        { s with inputs := es.filter fun e => e.rst || e.cmdValid } =
      Host.Core.run core es.length { s with inputs := es } := by
  induction es generalizing s with
  | nil => rfl
  | cons e es ih =>
    cases he : e.rst || e.cmdValid with
    | false =>
      obtain ⟨hr, hv⟩ : e.rst = false ∧ e.cmdValid = false := by simpa using he
      have hidle : step { s with inputs := e :: es } = .next { s with inputs := es } := by
        rw [edgeWithoutCommandKeepsRegisters _ e es rfl (.inl hv), if_neg (by simp [hr])]
      rw [List.filter_cons_of_neg (by simp [he]), List.length_cons, run_succ_of_next _ hidle]
      exact ih s hs
    | true =>
      obtain ⟨t, ht⟩ := step_completes (s := { s with inputs := e :: es }) hs
      have hstep := step_next_with_inputs ht
      rw [List.filter_cons_of_pos (by simp [he]), List.length_cons, List.length_cons,
        run_succ_of_next _ (hstep _), run_succ_of_next _ (hstep _)]
      exact ih t (step_next_keeps_resetSeen (s := { s with inputs := e :: es }) hs ht)

/-- Settles O45: the two runs end in the same state. -/
theorem idleEdgesChangeNoValue : Obligations.IdleEdgesChangeNoValue := by
  intro es s t hs h
  exact ⟨t, (run_filter_idle es s hs).trans h, rfl, rfl, rfl⟩

/-! ### The reset edge -/

/-- Settles O1: of an edge that accepts no command, the branch with reset asserted. -/
theorem resetEdgeLoadsResetValues : Obligations.ResetEdgeLoadsResetValues := by
  intro s e rest hs hr
  rw [edgeWithoutCommandKeepsRegisters s e rest hs (.inr hr), if_pos hr]
  rfl

/-- Settles O3: reset overwrites every field that a power-on state leaves open. -/
theorem oneResetEdgeBootsTheEngine : Obligations.OneResetEdgeBootsTheEngine := fun _ _ _ e rest hr =>
  resetEdgeLoadsResetValues _ e rest rfl hr

/-! ### Before the first reset -/

/-- Settles O25: each data command reads ACC, and that read faults. -/
theorem dataCommandBeforeResetFaults : Obligations.DataCommandBeforeResetFaults := by
  intro s b v hs
  refine ⟨?_, fun hw => ⟨?_, ?_⟩⟩
  · rw [exec, execByte, readAcc_of_no_reset hs]
  · rw [exec, execWordle, if_pos hw, readAcc_of_no_reset hs]
  · rw [exec, execWordbe, if_pos hw, readAcc_of_no_reset hs]

/-- Before the first reset a sample faults on the register that the output shows (R183). -/
theorem sample_of_no_reset {s : State} (hs : s.resetSeen = false) (p : OutPort) :
    sample s p = .error (.readBeforeReset (portReg p)) := by
  simp [sample, hs]

/-- Settles O27: the register named is the one that the output shows. -/
theorem noOutputBeforeReset : Obligations.NoOutputBeforeReset := fun _ p hs =>
  ⟨portReg p, sample_of_no_reset hs p⟩

end Sys2Proof.Machine
end

section
/-! The laws of the table ROM (20_memory.md R44, R48 to R51, R53): what a fold table holds, for every polynomial, the
linearity of the entries, and the bits of the reduction pattern. -/

namespace Sys2Proof.Machine

/-! ### The design-time check -/

/-- Tables 0 to 3 of a polynomial are the little-endian ones (R45, R47). -/
theorem romOf_eq_tableLE (poly : Word) {k : Nat} (hk : k < 4) (n : Byte) :
    romOf poly (BitVec.ofNat 3 k) n = tableLE poly k n := by
  have hm : (BitVec.ofNat 3 k).toNat = k := by rw [BitVec.toNat_ofNat]; omega
  rw [romOf, hm, if_pos hk]

/-- Tables 4 to 7 of a polynomial are its byte-swapped tables 0 to 3 (R46, R49). -/
theorem romOf_add_four (poly : Word) {k : Nat} (hk : k < 4) (n : Byte) :
    romOf poly (BitVec.ofNat 3 (k + 4)) n = bswap32 (romOf poly (BitVec.ofNat 3 k) n) := by
  have hm : (BitVec.ofNat 3 (k + 4)).toNat = k + 4 := by rw [BitVec.toNat_ofNat]; omega
  rw [romOf_eq_tableLE poly hk, romOf, hm, if_neg (by omega), Nat.add_sub_cancel]

/-- A byte step from 0 looks its byte up in table 0 (R14, R45). -/
theorem step8Of_romOf_from_zero (poly : Word) (n : Byte) : step8Of (romOf poly) 0#32 n = table0 poly n := by
  rw [step8Of, BitVec.zero_xor, byteOf_zext32, BitVec.zero_ushiftRight, BitVec.xor_zero]
  rfl

/-- A byte step by a zero byte is a fold-forward step (R14, R47). -/
theorem step8Of_romOf_zero_byte (poly c : Word) : step8Of (romOf poly) c 0#8 = foldForward poly c := by
  rw [step8Of, zext32_zero, BitVec.xor_zero]
  rfl

/-- Table `k` folds its byte and `k` zero bytes (R48), by induction on the number of zero bytes. -/
theorem tableLE_eq_foldl (poly : Word) (k : Nat) (n : Byte) :
    tableLE poly k n = (n :: List.replicate k 0#8).foldl (step8Of (romOf poly)) 0#32 := by
  induction k with
  | zero => exact (step8Of_romOf_from_zero poly n).symm
  | succ k ih =>
    rw [List.replicate_succ', ← List.cons_append, List.foldl_concat, ← ih, step8Of_romOf_zero_byte, tableLE]

/-- The relations of R48 and R49 hold for the tables of every polynomial. -/
theorem romOf_relations (poly : Word) (k : Fin 4) (n : Byte) :
    romOf poly (BitVec.ofNat 3 k) n = (n :: List.replicate k 0#8).foldl (step8Of (romOf poly)) 0#32 ∧
      romOf poly (BitVec.ofNat 3 (k + 4)) n = bswap32 (romOf poly (BitVec.ofNat 3 k) n) :=
  ⟨(romOf_eq_tableLE poly k.isLt n).trans (tableLE_eq_foldl poly k n), romOf_add_four poly k.isLt n⟩

/-- Settles O33: the two relations at this instance's polynomial and at any other, and the two spot values of R50. -/
theorem romPassesTheDesignTimeCheck : Obligations.RomPassesTheDesignTimeCheck :=
  ⟨⟨fun k n => (romOf_relations Config.poly k n).1, fun k n => (romOf_relations Config.poly k n).2,
    by decide, by decide⟩, romOf_relations⟩

/-! ### Linearity -/

/-- Every little-endian table is linear: table 0 is, and the fold-forward step keeps it so (R51). -/
theorem tableLE_xor (poly : Word) (k : Nat) (a b : Byte) :
    tableLE poly k (a ^^^ b) = tableLE poly k a ^^^ tableLE poly k b := by
  induction k with
  | zero => exact table0_xor poly a b
  | succ k ih => rw [tableLE, ih, foldForward_xor]; rfl

/-- Every table is linear: the byte swap keeps a little-endian table's linearity (R51). -/
theorem rom_xor (k : BitVec 3) (a b : Byte) : rom k (a ^^^ b) = rom k a ^^^ rom k b := by
  simp only [rom, romOf]
  split
  · exact tableLE_xor _ _ a b
  · rw [tableLE_xor, bswap32_xor]

/-- Settles O34: a map that distributes over XOR sends `0 = 0 ^ 0` to a word that cancels itself. -/
theorem romIsLinear : Obligations.RomIsLinear := by
  refine fun k a b => ⟨rom_xor k a b, ?_⟩
  calc rom k 0#8 = rom k 0#8 ^^^ rom k 0#8 := rom_xor k 0#8 0#8
    _ = 0#32 := BitVec.xor_self

/-! ### The reduction pattern -/

/-- A pattern with the bit of one more exponent (R44). -/
def setExponentBit (p : Word) (e : Nat) : Word := p ||| (1#32 <<< (31 - e))

/-- A set of exponents has the pattern made by setting their bits one by one (R44). -/
theorem reductionPattern_of_set {l : List Nat} (hle : ∀ e ∈ l, e ≤ 31) (hnd : l.Nodup) :
    reductionPattern l = some (l.foldl setExponentBit 0#32) := by
  rw [reductionPattern, if_pos ⟨by simpa using hle, hnd⟩]
  rfl

/-- Among the bits of exponents up to 31, only that of `e` is new. -/
theorem getLsbD_setExponentBit (p : Word) {e i : Nat} (he : e ≤ 31) (hi : i ≤ 31) :
    (setExponentBit p e).getLsbD (31 - i) = true ↔ p.getLsbD (31 - i) = true ∨ i = e := by
  have hbit : (1#32 <<< (31 - e)).getLsbD (31 - i) = true ↔ i = e := by
    simp only [BitVec.getLsbD_shiftLeft, BitVec.getLsbD_one, Bool.and_eq_true, Bool.not_eq_true',
      decide_eq_true_eq, decide_eq_false_iff_not]
    omega
  rw [setExponentBit, BitVec.getLsbD_or, Bool.or_eq_true, hbit]

/-- Setting the bits of a list of exponents adds exactly those bits. -/
theorem getLsbD_foldl_setExponentBit (l : List Nat) (p : Word) (hle : ∀ e ∈ l, e ≤ 31) {i : Nat} (hi : i ≤ 31) :
    (l.foldl setExponentBit p).getLsbD (31 - i) = true ↔ p.getLsbD (31 - i) = true ∨ i ∈ l := by
  induction l generalizing p with
  | nil => simp
  | cons e l ih =>
    obtain ⟨he, hl⟩ := List.forall_mem_cons.mp hle
    rw [List.foldl_cons, ih _ hl, getLsbD_setExponentBit p he hi, List.mem_cons, or_assoc]

/-- A list that is no set of exponents in [0, 31] has no pattern (93_implementation_defined.md I7). -/
theorem reductionPattern_of_not_set {l : List Nat} (h : (∃ e ∈ l, 31 < e) ∨ ¬ l.Nodup) :
    reductionPattern l = none := by
  refine if_neg fun ⟨hall, hnd⟩ => ?_
  obtain ⟨e, he, hlt⟩ | hdup := h
  · have hle : e ≤ 31 := by simpa using List.all_eq_true.mp hall e he
    omega
  · exact hdup hnd

/-- Settles O35: the bits are set one by one from 0, and the two checks refuse a list that is no set. -/
theorem reductionPatternSetsBitPerExponent : Obligations.ReductionPatternSetsBitPerExponent := by
  refine ⟨fun l hle hnd => ⟨_, reductionPattern_of_set hle hnd, fun i hi => ?_⟩,
    fun l h => reductionPattern_of_not_set h, by decide, by decide⟩
  simpa using getLsbD_foldl_setExponentBit l 0#32 hle hi

end Sys2Proof.Machine
end

section
/-! The laws of the checksum datapath (20_memory.md R74, 41_crc_datapath.md R114 to R119): words against bytes, the
accumulator kept in big-endian form, and the fold of a stream. -/

namespace Sys2Proof.Machine

/-! ### Words of either byte order -/

/-- Settles O21: the two word steps agree by the swapped operand, and without the word path, or before the first
reset, neither command looks at its operand. -/
theorem wordbeIsWordleOfTheSwappedWord : Obligations.WordbeIsWordleOfTheSwappedWord := by
  intro s v
  change execWordbe v s = execWordle (bswap32 v) s
  simp only [execWordbe, execWordle, wordStepBE_eq_wordStepLE]

/-- A word assembled in either byte order folds its four bytes in the order they were read (R117). -/
theorem exec_wordCommand {s : State} (hs : s.resetSeen = true) (hw : s.wordPath = true) (order : ByteOrder)
    (b0 b1 b2 b3 : Byte) :
    exec (wordCommand order b0 b1 b2 b3) s = .next (setAcc s (fold s.acc [b0, b1, b2, b3])) := by
  rw [exec_dataCommand hs (isDataCommand_wordCommand order b0 b1 b2 b3) (hw ▸ wellFormed_true _),
    streamBytes_wordCommand]

/-- Settles O39: the two packed words are the host's words of the same four bytes. -/
theorem wordStepsEqualFourByteSteps : Obligations.WordStepsEqualFourByteSteps := fun _ b0 b1 b2 b3 hs hw =>
  ⟨exec_wordCommand hs hw .le b0 b1 b2 b3, exec_wordCommand hs hw .be b0 b1 b2 b3⟩

/-- Settles O44: a run of data commands in an instance that has them all. -/
theorem mixedWidthsFoldTheSameStream : Obligations.MixedWidthsFoldTheSameStream := fun _ _ hs hw hin his =>
  run_present_dataCommands hs hin fun i hi => ⟨his i hi, hw ▸ wellFormed_true i⟩

/-! ### The accumulator in big-endian form -/

/-- Swapped, a shift towards the low byte is a shift towards the high byte (R12). -/
theorem bswap32_ushiftRight_eight (c : Word) : bswap32 (c >>> 8) = bswap32 c <<< 8 := by
  refine BitVec.eq_of_getLsbD_eq fun i hi => ?_
  rw [BitVec.getLsbD_shiftLeft, getLsbD_bswap32, getLsbD_bswap32]
  simp only [BitVec.getLsbD_ushiftRight]
  grind

/-- The big-endian byte step of the swapped accumulator is the swapped byte step (R115). -/
theorem swappedStep8_bswap32 (c : Word) (b : Byte) : swappedStep8 (bswap32 c) b = bswap32 (step8 c b) := by
  have hrom (n : Byte) : rom 4 n = bswap32 (rom 0 n) := rom_add_four (k := 0) (by decide) n
  have hbyte : byteOf 3 (bswap32 c) = byteOf 0 c := byteOf_bswap32 c 3 (by decide)
  rw [swappedStep8, hbyte, hrom, step8_eq, bswap32_xor, bswap32_ushiftRight_eight]

/-- So it stays the swapped accumulator after any bytes (R115). -/
theorem foldl_swappedStep8_bswap32 (c : Word) (bytes : List Byte) :
    bytes.foldl swappedStep8 (bswap32 c) = bswap32 (fold c bytes) :=
  List.foldl_hom bswap32 swappedStep8_bswap32

/-- Settles O41: WORDBE folds its stream bytes, and two swaps cancel. -/
theorem swappedAccumulatorIsEquivalent : Obligations.SwappedAccumulatorIsEquivalent := by
  refine fun c bytes => ⟨foldl_swappedStep8_bswap32 c bytes, fun s v hs hw => ?_⟩
  rw [foldl_swappedStep8_bswap32, bswap32_bswap32]
  exact exec_dataCommand hs (.inr (.inr ⟨v, rfl⟩)) hw

/-! ### The fold of a stream -/

/-- The byte step is linear in the accumulator and the byte together (R51, R119). -/
theorem step8_xor (a a' : Word) (b b' : Byte) : step8 (a ^^^ a') (b ^^^ b') = step8 a b ^^^ step8 a' b' := by
  have hindex : byteOf 0 (a ^^^ a') ^^^ (b ^^^ b') = (byteOf 0 a ^^^ b) ^^^ (byteOf 0 a' ^^^ b') := by
    rw [byteOf_xor]
    ac_rfl
  rw [step8_eq, hindex, rom_xor, BitVec.ushiftRight_xor_distrib, step8_eq, step8_eq]
  ac_rfl

/-- The fold is linear over streams of equal length (R119). -/
theorem fold_xor (a a' : Word) (S S' : List Byte) (h : S.length = S'.length) :
    fold (a ^^^ a') (List.zipWith (· ^^^ ·) S S') = fold a S ^^^ fold a' S' := by
  induction S generalizing a a' S' with
  | nil =>
    obtain rfl := List.length_eq_zero_iff.mp h.symm
    rfl
  | cons b S ih =>
    match S', h with
    | b' :: S', h =>
      rw [List.zipWith_cons_cons, fold_cons, step8_xor, ih _ _ S' (Nat.succ.inj h)]
      rfl

/-- Settles O42: a fold composes, the byte step is linear, and the complements between two calls cancel. -/
theorem foldComposesIsLinearAndChains : Obligations.FoldComposesIsLinearAndChains :=
  ⟨fold_append, fold_xor, crc32_append⟩

end Sys2Proof.Machine
end

section
/-! What the host's sequences read, and the CRC of whatever they read (43_sequences.md R139,
93_implementation_defined.md I3). -/

namespace Sys2Proof.Machine

/-- Settles O53: the parts of either plan read adjoining ranges that together are the buffer. -/
theorem sequencesReadTheBufferOnceInOrder : Obligations.SequencesReadTheBufferOnceInOrder := fun p base len order =>
  ⟨bytewisePlan_reads p base len, acceleratedPlan_reads p base len order⟩

/-- Whatever values its reads return, either plan issues INIT and data commands that carry those values: it issues what
it would over a buffer that holds them (log entry 8). -/
theorem exists_issue_isSequence {p : Word} {base : Nat} {order : ByteOrder} {values : List Byte} {plan : List HostOp}
    (hplan : plan = bytewisePlan p base values.length ∨ plan = acceleratedPlan p base values.length order) :
    ∃ is, issue plan values = some is ∧ IsSequence true p values is := by
  obtain rfl | rfl := hplan
  · have his := bytewiseCommands_eq p ⟨base, values⟩
    exact ⟨_, (issueOver_of_reads (bytewisePlan_reads p base values.length)).symm.trans his,
      bytewiseCommands_isSequence true his⟩
  · obtain ⟨is, his⟩ := exists_acceleratedCommands p ⟨base, values⟩ order
    exact ⟨is, (issueOver_of_reads (acceleratedPlan_reads p base values.length order)).symm.trans his,
      acceleratedCommands_isSequence his⟩

/-- Settles O54: INIT and data commands leave the CRC of the bytes they carry and write ACC alone. -/
theorem sequenceComputesTheCrcOfTheBytesRead : Obligations.SequenceComputesTheCrcOfTheBytesRead := by
  intro s p base order values plan hs hw hin hplan
  obtain ⟨is, his, hseq⟩ := exists_issue_isSequence hplan
  exact ⟨is, _, his, run_present_sequence hs hin (hw ▸ hseq), crcOut_fold _ _ _, rfl, rfl⟩

end Sys2Proof.Machine
end

section
/-! Unlisted edges (log entry 1) and INIT of the engine's own result (40_control.md R101, R102). -/

namespace Sys2Proof.Machine

/-- Settles O5: the edge that is not listed is the idle edge, and taking it off an empty list changes nothing. -/
theorem unlistedEdgeIsIdle : Obligations.UnlistedEdgeIsIdle := by
  intro s h
  rw [step, nextEdge_nil h, dropEdge_nil h]
  rfl

/-- Settles O17: `crc_out` and INIT each complement, and two complements cancel. -/
theorem initAndTheResultAreInverse : Obligations.InitAndTheResultAreInverse := by
  refine fun s => ⟨?_, fun v t h => ?_⟩
  · rw [exec_init, crcOut, complement_complement]
    rfl
  · rw [exec_init] at h
    cases h
    exact complement_complement v

end Sys2Proof.Machine
end

section
/-! What ACC means at every cycle boundary (10_state.md R35): the fold of the stream accepted since the last INIT or
reset. The relation of ACC to the history is kept by every command, so by every edge, so by every run. -/

namespace Sys2Proof.Machine

/-- A data command adds its bytes to the stream (R35). -/
theorem historyAcc_historyCommand_of_data {i : Instr} (hi : IsDataCommand i) (h : History) :
    historyAcc (historyCommand i h) = fold (historyAcc h) (streamBytes i) := by
  obtain ⟨b, rfl⟩ | ⟨v, rfl⟩ | ⟨v, rfl⟩ := hi <;> exact fold_append _ _ _

/-- A completed command of the instance keeps ACC the fold of the history (R35). -/
theorem exec_next_historyAcc {i : Instr} {s t : State} {h : History} (hs : s.resetSeen = true)
    (hi : i.wellFormed s.wordPath = true) (hacc : s.acc = historyAcc h) (he : exec i s = .next t) :
    t.acc = historyAcc (historyCommand i h) := by
  have hdata (hd : IsDataCommand i) : t.acc = historyAcc (historyCommand i h) := by
    rw [exec_dataCommand hs hd hi] at he
    cases he
    rw [setAcc_acc, hacc, historyAcc_historyCommand_of_data hd]
  cases i with
  | nop => cases he; exact hacc
  | init v => cases he; rfl
  | byte b => exact hdata (.inl ⟨b, rfl⟩)
  | wordle v => exact hdata (.inr (.inl ⟨v, rfl⟩))
  | wordbe v => exact hdata (.inr (.inr ⟨v, rfl⟩))
  | tread k n => cases he; exact hacc

/-- A reset edge counts as `INIT 0` (R35, R180). -/
theorem historyEdge_of_reset {e : Edge} (hr : e.rst = true) (wordPath : Bool) (h : History) :
    historyEdge wordPath h e = { seed := 0#32, stream := [] } := if_pos hr

/-- An edge that accepts nothing leaves the history as it is (R35, R89). -/
theorem historyEdge_of_idle {e : Edge} (hr : e.rst = false) (hv : e.cmdValid = false) (wordPath : Bool)
    (h : History) : historyEdge wordPath h e = h := by
  simp [historyEdge, accepts, hr, hv]

/-- An accepted command has its part in the history (R35). -/
theorem historyEdge_of_command {e : Edge} {wordPath : Bool} {i : Instr} (hr : e.rst = false)
    (hv : e.cmdValid = true) (hd : decode wordPath (portWord e) = .command i) (h : History) :
    historyEdge wordPath h e = historyCommand i h := by
  simp [historyEdge, accepts, hr, hv, hd]

/-- An accepted reserved opcode has none (R35, R150). -/
theorem historyEdge_of_reserved {e : Edge} {wordPath : Bool} {op : Byte} (hr : e.rst = false)
    (hv : e.cmdValid = true) (hd : decode wordPath (portWord e) = .reserved op) (h : History) :
    historyEdge wordPath h e = h := by
  simp [historyEdge, accepts, hr, hv, hd]

/-- An edge keeps ACC the fold of the history (R35). -/
theorem clockEdge_next_historyAcc {e : Edge} {s t : State} {h : History} (hs : s.resetSeen = true)
    (hacc : s.acc = historyAcc h) (he : clockEdge e s = .next t) :
    t.acc = historyAcc (historyEdge s.wordPath h e) := by
  obtain ⟨hr, hc⟩ | ⟨hr, hv, hc⟩ | ⟨hr, hv, i, hd, hc⟩ | ⟨hr, hv, op, hd, hc⟩ := clockEdge_cases e s <;>
    rw [hc] at he
  · cases he
    rw [historyEdge_of_reset hr]
    rfl
  · cases he
    rw [historyEdge_of_idle hr hv, hacc]
  · rw [historyEdge_of_command hr hv hd]
    exact exec_next_historyAcc hs (wellFormed_of_decode hd) hacc he
  · cases he
    rw [historyEdge_of_reserved hr hv hd, raiseErr_acc, hacc]

/-- A step takes its edge off the list and changes no parameter. -/
theorem step_next_wordPath_inputs {s t : State} (h : step s = .next t) :
    t.wordPath = s.wordPath ∧ t.inputs = s.inputs.tail := by
  obtain rfl | ⟨-, rfl⟩ | ⟨-, _, -, -, _, rfl⟩ | ⟨-, _, _, -, rfl⟩ | ⟨-, -, _, -, rfl⟩ := step_next_writes h <;>
    exact ⟨rfl, rfl⟩

/-- A run after reset completes, uses up its edges and keeps ACC the fold of the history (R35), by induction on the
edges. -/
theorem run_historyAcc {rest : List Edge} (es : List Edge) (s : State) (h : History) (hs : s.resetSeen = true)
    (hin : s.inputs = es ++ rest) (hacc : s.acc = historyAcc h) :
    ∃ t, Host.Core.run core es.length s = .next t ∧ t.inputs = rest ∧
      t.acc = historyAcc (historyEdges s.wordPath es h) := by
  induction es generalizing s h with
  | nil => exact ⟨s, run_zero s, hin, hacc⟩
  | cons e es ih =>
    obtain ⟨t, ht⟩ := step_completes hs
    obtain ⟨hwt, hint⟩ := step_next_wordPath_inputs ht
    have hacct : t.acc = historyAcc (historyEdge s.wordPath h e) :=
      clockEdge_next_historyAcc (s := { s with inputs := es ++ rest }) hs hacc ((step_cons hin).symm.trans ht)
    obtain ⟨u, hu, hinu, haccu⟩ := ih t _ (step_next_keeps_resetSeen hs ht) (by rw [hint, hin]; rfl) hacct
    rw [hwt] at haccu
    exact ⟨u, (run_succ_of_next es.length ht).trans hu, hinu, haccu⟩

/-- Settles O43: the two values asked for are ACC and its complement at the end of such a run. -/
theorem accIsTheFoldOfTheAcceptedStream : Obligations.AccIsTheFoldOfTheAcceptedStream := by
  intro es rest s h hs hin hacc
  obtain ⟨t, ht, hint, hacct⟩ := run_historyAcc es s h hs hin hacc
  exact ⟨t, ht, hint, hacct, congrArg complement hacct⟩

end Sys2Proof.Machine
end
